-- ==== Sys2Proof/Word.lean ====
section
/-!
DEFINITION. The widths of the machine: the byte, the 16-bit word, the 12-bit address field, and the register index
(spec/00_scope.md section 4, spec/10_state.md R20).
-/
namespace Sys2Proof

/-- A register, a timer, a byte of memory, an immediate `kk` (`REG_WIDTH`, R20). -/
abbrev Byte := BitVec 8

/-- An opcode, PC, I, a return address (`PC_WIDTH`, `I_WIDTH`, `STACK_ENTRY_WIDTH`). -/
abbrev Word := BitVec 16

/-- The address field `nnn` of an opcode (R71). -/
abbrev Addr := BitVec 12

/-- The 4-bit index of a general register V0..VF (R20). -/
abbrev RegIdx := Fin 16

/-- VF, register 15: also the flag register (R21). -/
abbrev VF : RegIdx := 15

end Sys2Proof
end

