-- ==== Sys2Proof/Config.lean ====
section
/-!
DEFINITION. What this hardware fixes (spec/00_scope.md section 4, R3) and the one value the spec leaves free.
-/
namespace Sys2Proof

/-- FREE VALUE: the random byte the environment supplies to a cycle whose event in the schedule names none
(40_engine.md R101, 92_eei_decisions.md D10). It has no body: every claim holds whatever it is. The argument is the number
of the cycle, so each cycle has a byte of its own (notes/assumptions/3.md). -/
opaque Config.randomByte : Nat → Byte

/-- `STACK_DEPTH` (R3, R25; 90_conflicts.md C1). -/
abbrev Config.stackDepth : Nat := 16

/-- `PROGRAM_BASE`, also the reset value of PC (R24, R212). -/
abbrev Config.programBase : Nat := 0x200

/-- `MAX_PROGRAM`, the longest image the loader accepts (R213). -/
abbrev Config.maxProgram : Nat := 0xE00

/-- `FONT_BASE` (R3, R59). -/
abbrev Config.fontBase : Nat := 0x000

/-- `FONT_GLYPH_BYTES` (R59). -/
abbrev Config.glyphBytes : Nat := 5

end Sys2Proof
end

