-- ==== Sys2Proof/Syntax.lean ====
section
/-!
DEFINITION. The 34 instructions, one constructor per row of spec/opcode_table.json, in the table's order
(spec/30_encoding.md section 3). Operands are the fields of R71, under their names there.
-/
namespace Sys2Proof

/-- One constructor per row of the opcode map. `n`, a row count, is a number: `WellFormed` bounds it. -/
inductive Instr where
  /-- 00E0 CLS -/
  | cls
  /-- 00EE RET -/
  | ret
  /-- 1nnn JP nnn -/
  | jp (nnn : Addr)
  /-- 2nnn CALL nnn -/
  | call (nnn : Addr)
  /-- 3xkk SE Vx, kk -/
  | seImm (x : RegIdx) (kk : Byte)
  /-- 4xkk SNE Vx, kk -/
  | sneImm (x : RegIdx) (kk : Byte)
  /-- 5xy0 SE Vx, Vy -/
  | seReg (x y : RegIdx)
  /-- 6xkk LD Vx, kk -/
  | ldImm (x : RegIdx) (kk : Byte)
  /-- 7xkk ADD Vx, kk -/
  | addImm (x : RegIdx) (kk : Byte)
  /-- 8xy0 LD Vx, Vy -/
  | ldReg (x y : RegIdx)
  /-- 8xy1 OR Vx, Vy -/
  | orReg (x y : RegIdx)
  /-- 8xy2 AND Vx, Vy -/
  | andReg (x y : RegIdx)
  /-- 8xy3 XOR Vx, Vy -/
  | xorReg (x y : RegIdx)
  /-- 8xy4 ADD Vx, Vy -/
  | addReg (x y : RegIdx)
  /-- 8xy5 SUB Vx, Vy -/
  | subReg (x y : RegIdx)
  /-- 8xy6 SHR Vx (the field y is decoded and not read) -/
  | shr (x y : RegIdx)
  /-- 8xy7 SUBN Vx, Vy -/
  | subnReg (x y : RegIdx)
  /-- 8xyE SHL Vx (the field y is decoded and not read) -/
  | shl (x y : RegIdx)
  /-- 9xy0 SNE Vx, Vy -/
  | sneReg (x y : RegIdx)
  /-- Annn LD I, nnn -/
  | ldI (nnn : Addr)
  /-- Bnnn JP V0, nnn -/
  | jpV0 (nnn : Addr)
  /-- Cxkk RND Vx, kk -/
  | rnd (x : RegIdx) (kk : Byte)
  /-- Dxyn DRW Vx, Vy, n -/
  | drw (x y : RegIdx) (n : Nat)
  /-- Ex9E SKP Vx -/
  | skp (x : RegIdx)
  /-- ExA1 SKNP Vx -/
  | sknp (x : RegIdx)
  /-- Fx07 LD Vx, DT -/
  | ldVxDt (x : RegIdx)
  /-- Fx0A LD Vx, K -/
  | ldVxK (x : RegIdx)
  /-- Fx15 LD DT, Vx -/
  | ldDtVx (x : RegIdx)
  /-- Fx18 LD ST, Vx -/
  | ldStVx (x : RegIdx)
  /-- Fx1E ADD I, Vx -/
  | addI (x : RegIdx)
  /-- Fx29 LD F, Vx -/
  | ldF (x : RegIdx)
  /-- Fx33 LD B, Vx -/
  | ldB (x : RegIdx)
  /-- Fx55 LD [I], Vx -/
  | storeRegs (x : RegIdx)
  /-- Fx65 LD Vx, [I] -/
  | loadRegs (x : RegIdx)
  deriving DecidableEq, Repr

end Sys2Proof
end

