-- ==== Sys2Proof/WellFormed.lean ====
section
/-!
DEFINITION. Which instruction terms the encoding admits (spec/30_encoding.md R71, R72). Register indices and the immediates
kk and nnn have exactly their fields' values by their types; the one operand that needs a check is the row count n of Dxyn,
which the 4-bit field holds only up to 15 (notes/assumptions/14.md).
-/
namespace Sys2Proof

/-- A row count the 4-bit field `n` can hold: 0..15 (R72). -/
def rowCountOk (n : Nat) : Bool := decide (n < 16)

/-- The check of an instruction, constructor by constructor. -/
def Instr.wellFormed : Instr → Bool
  | .drw _ _ n => rowCountOk n
  | .cls | .ret | .jp _ | .call _ | .seImm _ _ | .sneImm _ _ | .seReg _ _ | .ldImm _ _ | .addImm _ _ | .ldReg _ _
  | .orReg _ _ | .andReg _ _ | .xorReg _ _ | .addReg _ _ | .subReg _ _ | .shr _ _ | .subnReg _ _ | .shl _ _
  | .sneReg _ _ | .ldI _ | .jpV0 _ | .rnd _ _ | .skp _ | .sknp _ | .ldVxDt _ | .ldVxK _ | .ldDtVx _ | .ldStVx _
  | .addI _ | .ldF _ | .ldB _ | .storeRegs _ | .loadRegs _ => true

/-- The instruction is one the encoding admits. -/
abbrev Instr.WellFormed (i : Instr) : Prop := i.wellFormed = true

end Sys2Proof
end

