-- ==== Sys2Proof/Decode.lean ====
section
/-!
DEFINITION. The decoder (total, rejecting by name) and, after it, the encoder, both from spec/30_encoding.md: the fields of
R71, the two-level dispatch of R76-R80, and the mask and match of the opcode map (section 3).
-/
namespace Sys2Proof

/-! ### The six field views (R71) -/

/-- `id`, op[15:12]. -/
def opId (op : Word) : BitVec 4 := op.extractLsb' 12 4
/-- `x`, op[11:8], a register index. -/
def opX (op : Word) : RegIdx := (op.extractLsb' 8 4).toFin
/-- `y`, op[7:4], a register index. -/
def opY (op : Word) : RegIdx := (op.extractLsb' 4 4).toFin
/-- `n`, op[3:0]. -/
def opN (op : Word) : BitVec 4 := op.extractLsb' 0 4
/-- `kk`, op[7:0]. -/
def opKK (op : Word) : Byte := op.extractLsb' 0 8
/-- `nnn`, op[11:0]. -/
def opNNN (op : Word) : Addr := op.extractLsb' 0 12

/-! ### The decoder -/

/-- Why no instruction is read. -/
inductive DecodeError where
  /-- Fewer than two bytes were given; the machine's fetch never does this (R91). -/
  | truncated
  /-- The word matches no row of the opcode map: an illegal encoding (R80). -/
  | unknownInstruction (op : Word)
  deriving DecidableEq, Repr

/-- Group 0x0: 00E0 and 00EE, matched on all 16 bits (R77). -/
def decodeGroup0 (op : Word) : Except DecodeError Instr :=
  if op = 0x00E0#16 then .ok .cls
  else if op = 0x00EE#16 then .ok .ret
  else .error (.unknownInstruction op)

/-- Groups 0x5 and 0x9: one instruction each, with n = 0 (R78). -/
def decodeNibbleZero (i : Instr) (op : Word) : Except DecodeError Instr :=
  if opN op = 0x0#4 then .ok i else .error (.unknownInstruction op)

/-- Group 0x8 selects on n (R79). -/
def decodeGroup8 (op : Word) : Except DecodeError Instr :=
  match opN op with
  | 0x0#4 => .ok (.ldReg (opX op) (opY op))
  | 0x1#4 => .ok (.orReg (opX op) (opY op))
  | 0x2#4 => .ok (.andReg (opX op) (opY op))
  | 0x3#4 => .ok (.xorReg (opX op) (opY op))
  | 0x4#4 => .ok (.addReg (opX op) (opY op))
  | 0x5#4 => .ok (.subReg (opX op) (opY op))
  | 0x6#4 => .ok (.shr (opX op) (opY op))
  | 0x7#4 => .ok (.subnReg (opX op) (opY op))
  | 0xE#4 => .ok (.shl (opX op) (opY op))
  | _ => .error (.unknownInstruction op)

/-- Group 0xE selects on kk (R79). -/
def decodeGroupE (op : Word) : Except DecodeError Instr :=
  match opKK op with
  | 0x9E#8 => .ok (.skp (opX op))
  | 0xA1#8 => .ok (.sknp (opX op))
  | _ => .error (.unknownInstruction op)

/-- Group 0xF selects on kk (R79). -/
def decodeGroupF (op : Word) : Except DecodeError Instr :=
  match opKK op with
  | 0x07#8 => .ok (.ldVxDt (opX op))
  | 0x0A#8 => .ok (.ldVxK (opX op))
  | 0x15#8 => .ok (.ldDtVx (opX op))
  | 0x18#8 => .ok (.ldStVx (opX op))
  | 0x1E#8 => .ok (.addI (opX op))
  | 0x29#8 => .ok (.ldF (opX op))
  | 0x33#8 => .ok (.ldB (opX op))
  | 0x55#8 => .ok (.storeRegs (opX op))
  | 0x65#8 => .ok (.loadRegs (opX op))
  | _ => .error (.unknownInstruction op)

/-- One opcode, by the two-level dispatch of R76. -/
def decodeWord (op : Word) : Except DecodeError Instr :=
  match opId op with
  | 0x0#4 => decodeGroup0 op
  | 0x1#4 => .ok (.jp (opNNN op))
  | 0x2#4 => .ok (.call (opNNN op))
  | 0x3#4 => .ok (.seImm (opX op) (opKK op))
  | 0x4#4 => .ok (.sneImm (opX op) (opKK op))
  | 0x5#4 => decodeNibbleZero (.seReg (opX op) (opY op)) op
  | 0x6#4 => .ok (.ldImm (opX op) (opKK op))
  | 0x7#4 => .ok (.addImm (opX op) (opKK op))
  | 0x8#4 => decodeGroup8 op
  | 0x9#4 => decodeNibbleZero (.sneReg (opX op) (opY op)) op
  | 0xA#4 => .ok (.ldI (opNNN op))
  | 0xB#4 => .ok (.jpV0 (opNNN op))
  | 0xC#4 => .ok (.rnd (opX op) (opKK op))
  | 0xD#4 => .ok (.drw (opX op) (opY op) (opN op).toNat)
  | 0xE#4 => decodeGroupE op
  | 0xF#4 => decodeGroupF op
  | _ => .error (.unknownInstruction op)

/-- The word of two bytes, the first one high: the big-endian order of R53. -/
def wordOfBytes (hi lo : Byte) : Word := hi ++ lo

/-- The two bytes of a word in the order they lie in memory (R53). -/
def bytesOfWord (w : Word) : List Byte := [w.extractLsb' 8 8, w.extractLsb' 0 8]

/-- Decode from bytes: the instruction and the bytes after it (R70: every instruction is two bytes). -/
def decode : List Byte → Except DecodeError (Instr × List Byte)
  | hi :: lo :: rest =>
    match decodeWord (wordOfBytes hi lo) with
    | .ok i => .ok (i, rest)
    | .error e => .error e
  | [_] => .error .truncated
  | [] => .error .truncated

/-! ### The encoder, from the formats of R74 -/

/-- `NNN`: iiii nnnn nnnn nnnn. -/
def formatNNN (i : BitVec 4) (nnn : Addr) : Word := i ++ nnn
/-- `XKK`: iiii xxxx kkkk kkkk. -/
def formatXKK (i : BitVec 4) (x : RegIdx) (kk : Byte) : Word := i ++ ((BitVec.ofFin x : BitVec 4) ++ kk)
/-- `XY` and `XYN`: iiii xxxx yyyy ssss. -/
def formatXYN (i : BitVec 4) (x y : RegIdx) (n : BitVec 4) : Word :=
  i ++ ((BitVec.ofFin x : BitVec 4) ++ ((BitVec.ofFin y : BitVec 4) ++ n))

/-- The word of an instruction (section 3 of spec/30_encoding.md). -/
def encodeWord : Instr → Word
  | .cls => 0x00E0#16
  | .ret => 0x00EE#16
  | .jp nnn => formatNNN 0x1 nnn
  | .call nnn => formatNNN 0x2 nnn
  | .seImm x kk => formatXKK 0x3 x kk
  | .sneImm x kk => formatXKK 0x4 x kk
  | .seReg x y => formatXYN 0x5 x y 0x0
  | .ldImm x kk => formatXKK 0x6 x kk
  | .addImm x kk => formatXKK 0x7 x kk
  | .ldReg x y => formatXYN 0x8 x y 0x0
  | .orReg x y => formatXYN 0x8 x y 0x1
  | .andReg x y => formatXYN 0x8 x y 0x2
  | .xorReg x y => formatXYN 0x8 x y 0x3
  | .addReg x y => formatXYN 0x8 x y 0x4
  | .subReg x y => formatXYN 0x8 x y 0x5
  | .shr x y => formatXYN 0x8 x y 0x6
  | .subnReg x y => formatXYN 0x8 x y 0x7
  | .shl x y => formatXYN 0x8 x y 0xE
  | .sneReg x y => formatXYN 0x9 x y 0x0
  | .ldI nnn => formatNNN 0xA nnn
  | .jpV0 nnn => formatNNN 0xB nnn
  | .rnd x kk => formatXKK 0xC x kk
  | .drw x y n => formatXYN 0xD x y (BitVec.ofNat 4 n)
  | .skp x => formatXKK 0xE x 0x9E
  | .sknp x => formatXKK 0xE x 0xA1
  | .ldVxDt x => formatXKK 0xF x 0x07
  | .ldVxK x => formatXKK 0xF x 0x0A
  | .ldDtVx x => formatXKK 0xF x 0x15
  | .ldStVx x => formatXKK 0xF x 0x18
  | .addI x => formatXKK 0xF x 0x1E
  | .ldF x => formatXKK 0xF x 0x29
  | .ldB x => formatXKK 0xF x 0x33
  | .storeRegs x => formatXKK 0xF x 0x55
  | .loadRegs x => formatXKK 0xF x 0x65

/-- The bytes of an instruction, in memory order. -/
def encode (i : Instr) : List Byte := bytesOfWord (encodeWord i)

/-! ### The opcode map as the spec prints it: mask and match per row (R75) -/

/-- One row of the opcode map: the number of the row and the two constants of `(op AND mask) = match`. -/
structure OpcodeRow where
  number : Nat
  mask : Word
  pattern : Word
  deriving DecidableEq, Repr

/-- The word selects the row (R75). -/
def OpcodeRow.selects (r : OpcodeRow) (op : Word) : Bool := (op &&& r.mask) == r.pattern

/-- The row an instruction stands in, with the constants of spec/30_encoding.md section 3. -/
def Instr.row : Instr → OpcodeRow
  | .cls => ⟨1, 0xFFFF, 0x00E0⟩
  | .ret => ⟨2, 0xFFFF, 0x00EE⟩
  | .jp _ => ⟨3, 0xF000, 0x1000⟩
  | .call _ => ⟨4, 0xF000, 0x2000⟩
  | .seImm _ _ => ⟨5, 0xF000, 0x3000⟩
  | .sneImm _ _ => ⟨6, 0xF000, 0x4000⟩
  | .seReg _ _ => ⟨7, 0xF00F, 0x5000⟩
  | .ldImm _ _ => ⟨8, 0xF000, 0x6000⟩
  | .addImm _ _ => ⟨9, 0xF000, 0x7000⟩
  | .ldReg _ _ => ⟨10, 0xF00F, 0x8000⟩
  | .orReg _ _ => ⟨11, 0xF00F, 0x8001⟩
  | .andReg _ _ => ⟨12, 0xF00F, 0x8002⟩
  | .xorReg _ _ => ⟨13, 0xF00F, 0x8003⟩
  | .addReg _ _ => ⟨14, 0xF00F, 0x8004⟩
  | .subReg _ _ => ⟨15, 0xF00F, 0x8005⟩
  | .shr _ _ => ⟨16, 0xF00F, 0x8006⟩
  | .subnReg _ _ => ⟨17, 0xF00F, 0x8007⟩
  | .shl _ _ => ⟨18, 0xF00F, 0x800E⟩
  | .sneReg _ _ => ⟨19, 0xF00F, 0x9000⟩
  | .ldI _ => ⟨20, 0xF000, 0xA000⟩
  | .jpV0 _ => ⟨21, 0xF000, 0xB000⟩
  | .rnd _ _ => ⟨22, 0xF000, 0xC000⟩
  | .drw _ _ _ => ⟨23, 0xF000, 0xD000⟩
  | .skp _ => ⟨24, 0xF0FF, 0xE09E⟩
  | .sknp _ => ⟨25, 0xF0FF, 0xE0A1⟩
  | .ldVxDt _ => ⟨26, 0xF0FF, 0xF007⟩
  | .ldVxK _ => ⟨27, 0xF0FF, 0xF00A⟩
  | .ldDtVx _ => ⟨28, 0xF0FF, 0xF015⟩
  | .ldStVx _ => ⟨29, 0xF0FF, 0xF018⟩
  | .addI _ => ⟨30, 0xF0FF, 0xF01E⟩
  | .ldF _ => ⟨31, 0xF0FF, 0xF029⟩
  | .ldB _ => ⟨32, 0xF0FF, 0xF033⟩
  | .storeRegs _ => ⟨33, 0xF0FF, 0xF055⟩
  | .loadRegs _ => ⟨34, 0xF0FF, 0xF065⟩

/-- The rows of groups 0x0 to 0x8 below the arithmetic ones. -/
def opcodeMapPlain : List OpcodeRow :=
  [Instr.row .cls, Instr.row .ret, Instr.row (.jp 0), Instr.row (.call 0), Instr.row (.seImm 0 0),
   Instr.row (.sneImm 0 0), Instr.row (.seReg 0 0), Instr.row (.ldImm 0 0), Instr.row (.addImm 0 0)]

/-- The rows of group 0x8. -/
def opcodeMapArithmetic : List OpcodeRow :=
  [Instr.row (.ldReg 0 0), Instr.row (.orReg 0 0), Instr.row (.andReg 0 0), Instr.row (.xorReg 0 0),
   Instr.row (.addReg 0 0), Instr.row (.subReg 0 0), Instr.row (.shr 0 0), Instr.row (.subnReg 0 0),
   Instr.row (.shl 0 0)]

/-- The rows of groups 0x9 to 0xE. -/
def opcodeMapUpper : List OpcodeRow :=
  [Instr.row (.sneReg 0 0), Instr.row (.ldI 0), Instr.row (.jpV0 0), Instr.row (.rnd 0 0), Instr.row (.drw 0 0 0),
   Instr.row (.skp 0), Instr.row (.sknp 0)]

/-- The rows of group 0xF. -/
def opcodeMapF : List OpcodeRow :=
  [Instr.row (.ldVxDt 0), Instr.row (.ldVxK 0), Instr.row (.ldDtVx 0), Instr.row (.ldStVx 0), Instr.row (.addI 0),
   Instr.row (.ldF 0), Instr.row (.ldB 0), Instr.row (.storeRegs 0), Instr.row (.loadRegs 0)]

/-- The whole opcode map, in the table's order. -/
def opcodeMap : List OpcodeRow := opcodeMapPlain ++ opcodeMapArithmetic ++ opcodeMapUpper ++ opcodeMapF

/-! ### The host's question: which instruction a table word is -/

/-- The instruction the decoder reads from a word numbered as the table numbers it: the word's low `nbits` bits, every bit
above them 0, laid out in memory order. -/
def decodeTableWord (nbits w : Nat) : Option Instr :=
  match decode (bytesOfWord (BitVec.ofNat 16 (w % 2 ^ nbits))) with
  | .ok (i, _) => some i
  | .error _ => none

end Sys2Proof
end

