-- ==== Sys2Proof/Machine/State.lean ====
section
/-!
DEFINITION. The machine's state as plain data (spec/10_state.md), the events of its environment (spec/40_engine.md R98), the
reasons a step can stop, and the state after reset (spec/70_reset_and_hazards.md R211).
-/
namespace Sys2Proof.Machine

/-- The bytes of M that differ from what reset leaves, as (address, byte) pairs with strictly rising addresses
(20_memory.md R50; `Memory.wf` in Ops.lean is the form; notes/assumptions/11.md). -/
abbrev Memory := List Host.Cell

/-- The framebuffer: 32 rows of 64 one-bit pixels, column x of a row being its bit x (R29, R65). -/
abbrev FrameBuffer := Vector (BitVec 64) 32

/-- The keypad snapshot: true is pressed (R30). -/
abbrev Keypad := Vector Bool 16

/-- The fault status register (R33). -/
structure Fsr where
  halted : Bool
  kind : BitVec 3
  opcode : Word
  fpc : Word
  deriving DecidableEq, Repr

/-- The four fatal conditions (60_exceptions.md R180). -/
inductive Fatal where
  | unknownInstruction
  | stackOverflow
  | stackUnderflow
  | programTooLarge
  deriving DecidableEq, Repr

/-- The events of the environment (R98). -/
inductive Event where
  /-- `Cycle(rnd)`: one instruction, with the random byte supplied to it (R90, R101). -/
  | cycle (rnd : Byte)
  /-- `Tick`: one pulse of the external timer clock (R188). -/
  | tick
  /-- `SetKeys(k)`: a new keypad snapshot (R194). -/
  | setKeys (k : Keypad)
  /-- `Load(bytes)`: the program loader; only before the first cycle (R213). -/
  | load (image : List Byte)
  deriving DecidableEq, Repr

/-- The state: what 10_state.md R20-R33 lists, and three fields that stand for the environment. -/
structure State where
  /-- V0..VF (R20, R21). -/
  v : Vector Byte 16
  /-- I (R23). -/
  i : Word
  /-- PC (R24). -/
  pc : Word
  /-- S[0..15] (R25). -/
  stack : Vector Word 16
  /-- SP, the number of entries in use, 0..16 (R26; notes/assumptions/10.md). -/
  sp : Fin 17
  /-- DT (R27). -/
  dt : Byte
  /-- ST (R28). -/
  st : Byte
  /-- FB (R29). -/
  fb : FrameBuffer
  /-- K (R30). -/
  keys : Keypad
  /-- M (R31). -/
  mem : Memory
  /-- FSR (R33). -/
  fsr : Fsr
  /-- The MODEL's own: the host's events that are due, first event first (D29; notes/assumptions/1.md). -/
  schedule : List Event
  /-- The MODEL's own: how many cycles have begun (notes/assumptions/3.md, 7.md). -/
  cycles : Nat
  /-- The MODEL's own: the random byte the schedule named for the current cycle (notes/assumptions/3.md). -/
  rnd : Option Byte
  deriving DecidableEq, Repr

/-- Why the machine stops. -/
inductive Fault where
  /-- Raised by `step` when a cycle is due and FSR.HALTED = 1: no cycle is enabled (R100, R186). Safe: the spec gives the
  machine no further step. -/
  | halted
  deriving DecidableEq, Repr

/-- What the model gives no meaning. -/
inductive Refusal where
  /-- Raised by an arm of `exec` that has no meaning yet; no arm does. Safe. -/
  | notModelled (mnemonic : String)
  /-- Raised by `step` when the schedule asks for a load after the first cycle, which is no event of the interface (R98,
  R213; notes/assumptions/7.md). Safe. -/
  | loadAfterFirstCycle
  deriving DecidableEq, Repr

/-- FSR with no fatal condition recorded (R33). -/
def Fsr.clear : Fsr := { halted := false, kind := 0, opcode := 0, fpc := 0 }

/-- The state right after reset, before any program is loaded (R210, R211): every field zero, PC at 0x200, and memory at its
reset contents, the font at 0x000-0x04F among them. -/
def State.reset : State where
  v := Vector.replicate 16 0
  i := 0x0000
  pc := 0x0200
  stack := Vector.replicate 16 0
  sp := 0
  dt := 0
  st := 0
  fb := Vector.replicate 32 0
  keys := Vector.replicate 16 false
  mem := []
  fsr := Fsr.clear
  schedule := []
  cycles := 0
  rnd := none

end Sys2Proof.Machine
end

