-- ==== Sys2Proof/Machine/Ops.lean ====
section
/-!
DEFINITION. The named operations over memory, registers, the stack and the framebuffer, fetching an opcode, and taking a
fatal condition (spec/10_state.md, 20_memory.md, 40_engine.md, 60_exceptions.md). There is no return from a fatal condition
(R187), so no operation for one.
-/
namespace Sys2Proof.Machine

/-! ### Memory (20_memory.md) -/

/-- Glyphs 0 to 7 (R59). -/
def fontLower : List Byte :=
  [0xF0, 0x90, 0x90, 0x90, 0xF0] ++ [0x20, 0x60, 0x20, 0x20, 0x70] ++ [0xF0, 0x10, 0xF0, 0x80, 0xF0] ++
  [0xF0, 0x10, 0xF0, 0x10, 0xF0] ++ [0x90, 0x90, 0xF0, 0x10, 0x10] ++ [0xF0, 0x80, 0xF0, 0x10, 0xF0] ++
  [0xF0, 0x80, 0xF0, 0x90, 0xF0] ++ [0xF0, 0x10, 0x20, 0x40, 0x40]

/-- Glyphs 8 to F (R59). -/
def fontUpper : List Byte :=
  [0xF0, 0x90, 0xF0, 0x90, 0xF0] ++ [0xF0, 0x90, 0xF0, 0x10, 0xF0] ++ [0xF0, 0x90, 0xF0, 0x90, 0x90] ++
  [0xE0, 0x90, 0xE0, 0x90, 0xE0] ++ [0xF0, 0x80, 0x80, 0x80, 0xF0] ++ [0xE0, 0x90, 0x90, 0x90, 0xE0] ++
  [0xF0, 0x80, 0xF0, 0x80, 0xF0] ++ [0xF0, 0x80, 0xF0, 0x80, 0x80]

/-- The font table, glyph d at offset 5*d (R59). -/
def fontTable : List Byte := fontLower ++ fontUpper

/-- What reset leaves at an index of M: the font at FONT_BASE, 0x00 elsewhere (R31, R59). It is what an index that the memory
list does not name reads as. -/
def resetByte (k : Nat) : Byte :=
  if k < Config.fontBase then 0 else fontTable.getD (k - Config.fontBase) 0

/-- `addr AND 0xFFF`: the index of M an address selects (R51). -/
def maskAddr (a : Word) : Nat := (a &&& 0x0FFF#16).toNat

/-- M[k], for an index k. -/
def Memory.lookup : Memory → Nat → Byte
  | [], k => resetByte k
  | c :: rest, k => if c.1 = k then c.2 else Memory.lookup rest k

/-- The list without an entry for index k. -/
def Memory.erase (m : Memory) (k : Nat) : Memory := m.filter (fun c => c.1 != k)

/-- An entry put in its place among rising indices. -/
def Memory.insert : Memory → Nat → Byte → Memory
  | [], k, b => [(k, b)]
  | c :: rest, k, b => if k < c.1 then (k, b) :: c :: rest else c :: Memory.insert rest k b

/-- M[k] <- b, keeping the canonical form: an index holding its reset byte is not listed. -/
def Memory.update (m : Memory) (k : Nat) (b : Byte) : Memory :=
  if b = resetByte k then m.erase k else (m.erase k).insert k b

/-- The canonical form: indices strictly rising and inside M, and no entry equal to what an unlisted index reads as. -/
abbrev Memory.wf (m : Memory) : Prop :=
  m.Pairwise (fun c d => c.1 < d.1) ∧ ∀ c ∈ m, c.1 < 4096 ∧ c.2 ≠ resetByte c.1

/-- `MemRead(addr, 1)` (R51). -/
def Memory.read (m : Memory) (a : Word) : Byte := m.lookup (maskAddr a)

/-- `MemWrite(addr, 1, v)` (R52). -/
def Memory.write (m : Memory) (a : Word) (b : Byte) : Memory := m.update (maskAddr a) b

/-- MemRead over the state. -/
def State.read (s : State) (a : Word) : Byte := s.mem.read a

/-! ### Registers (10_state.md R20-R28) -/

/-- V[x]. -/
def State.getV (s : State) (x : RegIdx) : Byte := s.v[x]

/-- V[x] <- b. -/
def State.setV (s : State) (x : RegIdx) (b : Byte) : State := { s with v := s.v.set x.val b x.isLt }

/-- V[0..15] <- v. -/
def State.setAllV (s : State) (v : Vector Byte 16) : State := { s with v := v }

/-- I <- w. -/
def State.setI (s : State) (w : Word) : State := { s with i := w }

/-- PC <- w. -/
def State.setPc (s : State) (w : Word) : State := { s with pc := w }

/-- The advance of PC made at fetch: PC <- (A + 2) mod 65536 (40_engine.md R92). -/
def State.advance (s : State) : State := { s with pc := s.pc + 2 }

/-- DT <- b. -/
def State.setDt (s : State) (b : Byte) : State := { s with dt := b }

/-- ST <- b. -/
def State.setSt (s : State) (b : Byte) : State := { s with st := b }

/-- FB <- fb. -/
def State.setFb (s : State) (fb : FrameBuffer) : State := { s with fb := fb }

/-- K <- k. -/
def State.setKeys (s : State) (k : Keypad) : State := { s with keys := k }

/-- M <- m. -/
def State.setMem (s : State) (m : Memory) : State := { s with mem := m }

/-! ### The return-address stack (R25, R26) -/

/-- `push_return(address)`: S[SP] <- a, SP <- SP + 1; none where the stack is full (R26, R182). -/
def State.push (s : State) (a : Word) : Option State :=
  if h : s.sp.val < Config.stackDepth then
    some { s with stack := s.stack.set s.sp.val a h, sp := ⟨s.sp.val + 1, Nat.succ_lt_succ h⟩ }
  else none

/-- `pop_return()`: SP <- SP - 1, then S[SP], the entry staying as it was (R26, R35); none where the stack is empty (R183). -/
def State.pop (s : State) : Option (Word × State) :=
  if h : s.sp.val ≠ 0 then
    have hlt : s.sp.val - 1 < 16 := by have := s.sp.isLt; omega
    some (s.stack[s.sp.val - 1], { s with sp := ⟨s.sp.val - 1, Nat.lt_succ_of_lt hlt⟩ })
  else none

/-! ### The framebuffer (R29, R65) and what the sinks read (60_exceptions.md R192, R193) -/

/-- FB[x][y], the coordinates reduced modulo 64 and 32 (R29). -/
def FrameBuffer.pixel (fb : FrameBuffer) (x y : Nat) : Bool :=
  (fb[y % 32]'(Nat.mod_lt y (by decide))).getLsbD (x % 64)

/-- FB[x][y] <- FB[x][y] XOR 1, the coordinates reduced. -/
def FrameBuffer.flip (fb : FrameBuffer) (x y : Nat) : FrameBuffer :=
  fb.set (y % 32) (fb[y % 32]'(Nat.mod_lt y (by decide)) ^^^ BitVec.twoPow 64 (x % 64)) (Nat.mod_lt y (by decide))

/-- Every pixel off. -/
def FrameBuffer.blank : FrameBuffer := Vector.replicate 32 0

/-- The pixel the display sink reads at column x and row y (R193). -/
def State.pixel (s : State) (x y : Nat) : Bool := FrameBuffer.pixel s.fb x y

/-- The framebuffer port's bit at linear bit address y*64 + x (R65). -/
def State.framebufferBit (s : State) (k : Nat) : Bool := s.pixel (k % 64) (k / 64)

/-- The sound output: active exactly while ST is not 0 (R192). -/
def State.soundOn (s : State) : Bool := s.st != 0

/-! ### Fetch (40_engine.md R90, R91) and the random byte (R101) -/

/-- The opcode at PC: M[PC] high, M[PC + 1] low, each address masked (R53, R91). -/
def State.fetchWord (s : State) : Word := wordOfBytes (s.read s.pc) (s.read (s.pc + 1))

/-- The word stored where the next fetch reads it, high byte first (R53). -/
def State.placeWord (s : State) (w : Word) : State :=
  s.setMem ((s.mem.write s.pc (w.extractLsb' 8 8)).write (s.pc + 1) (w.extractLsb' 0 8))

/-- The random byte of the current cycle: the one the schedule named, or the free value (R101; notes/assumptions/3.md). -/
def State.random (s : State) : Byte := s.rnd.getD (Config.randomByte s.cycles)

/-! ### Taking a fatal condition (60_exceptions.md R180, R186) -/

/-- The code in FSR.KIND (R180). -/
def Fatal.code : Fatal → BitVec 3
  | .unknownInstruction => 1
  | .stackOverflow => 2
  | .stackUnderflow => 3
  | .programTooLarge => 4

/-- `raise F`: FSR records the condition, the opcode and the address it was fetched from, and everything else stays as it was
before the cycle (R186). It is applied to the state as the cycle found it, so the cycle's writes are discarded. -/
def State.raise (s : State) (f : Fatal) (op a : Word) : State :=
  { s with fsr := { halted := true, kind := f.code, opcode := op, fpc := a } }

end Sys2Proof.Machine
end

