-- ==== Sys2Proof/Machine/Flags.lean ====
section
/-!
DEFINITION. The flag computations (spec/43_alu.md R130, R137-R141) and the order in which a result and the flag are written.
-/
namespace Sys2Proof.Machine

/-- A flag as VF holds it: 1 or 0. -/
def flagByte (f : Bool) : Byte := if f then 1 else 0

/-- The carry of 8xy4: a + b > 255 (R137). -/
def carry (a b : Byte) : Bool := decide (255 < a.toNat + b.toNat)

/-- No borrow in a - b: a >= b (R138, R140). -/
def noBorrow (a b : Byte) : Bool := decide (b.toNat ≤ a.toNat)

/-- Bit 0, shifted out by 8xy6 (R139). -/
def lowBit (a : Byte) : Bool := a.getLsbD 0

/-- Bit 7, shifted out by 8xyE (R141). -/
def highBit (a : Byte) : Bool := a.getLsbD 7

/-- VF <- the flag. -/
def State.setFlag (s : State) (f : Bool) : State := s.setV VF (flagByte f)

/-- V[x] <- r, then VF <- the flag: with x = 0xF the flag is the final value (R130). -/
def State.setResultAndFlag (s : State) (x : RegIdx) (r : Byte) (f : Bool) : State := (s.setV x r).setFlag f

end Sys2Proof.Machine
end

