-- ==== Sys2Proof/Machine/Operands.lean ====
section
/-!
DEFINITION. The operand forms (spec/30_encoding.md R72, R73): zero-extended immediates, memory at I + k, the key and the digit
a register selects, the register block V0..Vx, the decimal digits, and the sprite's pixels.
-/
namespace Sys2Proof.Machine

/-- zext_16(nnn) (R72). -/
def zextAddr (nnn : Addr) : Word := nnn.setWidth 16

/-- zext_16 of a register's value. -/
def zextByte (b : Byte) : Word := b.setWidth 16

/-- The address I + k of a transfer, before it is masked (20_memory.md R55). -/
def State.addrAt (s : State) (k : Nat) : Word := s.i + BitVec.ofNat 16 k

/-- The low 4 bits of a register's value: the key of Ex9E and ExA1 (42_skip.md R124), the digit of Fx29 (R152). -/
def lowNibble (b : Byte) : RegIdx := (b.extractLsb' 0 4).toFin

/-- K[k]. -/
def State.key (s : State) (k : RegIdx) : Bool := s.keys[k]

/-- The 16 key numbers, rising. -/
def allKeys : List RegIdx := [0, 1, 2, 3, 4, 5, 6, 7] ++ [8, 9, 10, 11, 12, 13, 14, 15]

/-- The least pressed key, if one is pressed (45_timers_keys.md R161). -/
def State.lowestKey (s : State) : Option RegIdx := allKeys.find? (fun k => s.key k)

/-- A key or register number as a byte. -/
def byteOfIdx (k : RegIdx) : Byte := BitVec.ofNat 8 k.val

/-- (I + v) mod 4096 (44_index_memory.md R151). -/
def addMod4096 (i : Word) (b : Byte) : Word := (i + zextByte b) &&& 0x0FFF#16

/-- FONT_BASE + 5 * digit (R152). -/
def fontAddr (d : RegIdx) : Word := BitVec.ofNat 16 (Config.fontBase + Config.glyphBytes * d.val)

/-- Hundreds, tens and ones of a byte (R153). -/
def hundreds (b : Byte) : Byte := BitVec.ofNat 8 (b.toNat / 100)
/-- The tens digit. -/
def tens (b : Byte) : Byte := BitVec.ofNat 8 (b.toNat / 10 % 10)
/-- The ones digit. -/
def ones (b : Byte) : Byte := BitVec.ofNat 8 (b.toNat % 10)

/-- The three writes of Fx33, in the rule's order (R153). -/
def State.storeBcd (s : State) (b : Byte) : Memory :=
  ((s.mem.write (s.addrAt 0) (hundreds b)).write (s.addrAt 1) (tens b)).write (s.addrAt 2) (ones b)

/-- The first k writes of Fx55: M[I + j] <- V[j] for j = 0 .. k - 1, in increasing j (R154). -/
def State.storeBlock (s : State) : Nat → Memory
  | 0 => s.mem
  | k + 1 => (s.storeBlock k).write (s.addrAt k) (s.getV (Fin.ofNat 16 k))

/-- The first k writes of Fx65: V[j] <- M[I + j] for j = 0 .. k - 1, memory as it was at the start (R155, R96). -/
def State.loadBlock (s : State) : Nat → State
  | 0 => s
  | k + 1 => (s.loadBlock k).setV (Fin.ofNat 16 k) (s.read (s.addrAt k))

/-- A framebuffer being drawn on, and whether a pixel has gone from on to off so far (46_display.md R172). -/
abbrev Canvas := FrameBuffer × Bool

/-- Column c of the sprite row `row`, drawn in display row y0 + r: bit 7 - c of the row, 0 leaving its pixel alone (R171). -/
def drawPixel (x0 y0 : Byte) (row : Byte) (r c : Nat) (a : Canvas) : Canvas :=
  if row.getLsbD (7 - c) then
    (FrameBuffer.flip a.1 (x0.toNat + c) (y0.toNat + r), a.2 || FrameBuffer.pixel a.1 (x0.toNat + c) (y0.toNat + r))
  else a

/-- Columns 0 .. c - 1 of a sprite row, in order. -/
def drawColumns (x0 y0 : Byte) (row : Byte) (r : Nat) : Nat → Canvas → Canvas
  | 0, a => a
  | c + 1, a => drawPixel x0 y0 row r c (drawColumns x0 y0 row r c a)

/-- Rows 0 .. r - 1 of the sprite at I, in order (R171). -/
def State.drawRows (s : State) (x0 y0 : Byte) : Nat → Canvas → Canvas
  | 0, a => a
  | r + 1, a => drawColumns x0 y0 (s.read (s.addrAt r)) r 8 (s.drawRows x0 y0 r a)

end Sys2Proof.Machine
end

