-- ==== Sys2Proof/Machine/Alu.lean ====
section
/-!
DEFINITION. Register loads, arithmetic and logic (spec/43_alu.md R130-R142). Operands are read from the state the cycle found,
before any write (40_engine.md R96).
-/
namespace Sys2Proof.Machine

/-- R131: V[x] <- kk. -/
def execLdImm (x : RegIdx) (kk : Byte) (s : State) : Host.Outcome State Fault Refusal :=
  .next (s.advance.setV x kk)

/-- R132: V[x] <- (a + kk) mod 256; no flag. -/
def execAddImm (x : RegIdx) (kk : Byte) (s : State) : Host.Outcome State Fault Refusal :=
  .next (s.advance.setV x (s.getV x + kk))

/-- R133: V[x] <- b. -/
def execLdReg (x y : RegIdx) (s : State) : Host.Outcome State Fault Refusal :=
  .next (s.advance.setV x (s.getV y))

/-- R134: V[x] <- a OR b; VF is not reset. -/
def execOrReg (x y : RegIdx) (s : State) : Host.Outcome State Fault Refusal :=
  .next (s.advance.setV x (s.getV x ||| s.getV y))

/-- R135: V[x] <- a AND b; VF is not reset. -/
def execAndReg (x y : RegIdx) (s : State) : Host.Outcome State Fault Refusal :=
  .next (s.advance.setV x (s.getV x &&& s.getV y))

/-- R136: V[x] <- a XOR b; VF is not reset. -/
def execXorReg (x y : RegIdx) (s : State) : Host.Outcome State Fault Refusal :=
  .next (s.advance.setV x (s.getV x ^^^ s.getV y))

/-- R137: the sum, VF = carry. -/
def execAddReg (x y : RegIdx) (s : State) : Host.Outcome State Fault Refusal :=
  .next (s.advance.setResultAndFlag x (s.getV x + s.getV y) (carry (s.getV x) (s.getV y)))

/-- R138: a - b, VF = no borrow. -/
def execSubReg (x y : RegIdx) (s : State) : Host.Outcome State Fault Refusal :=
  .next (s.advance.setResultAndFlag x (s.getV x - s.getV y) (noBorrow (s.getV x) (s.getV y)))

/-- R139: a >> 1, VF = bit 0 of a; Vy is not used. -/
def execShr (x : RegIdx) (s : State) : Host.Outcome State Fault Refusal :=
  .next (s.advance.setResultAndFlag x (s.getV x >>> 1) (lowBit (s.getV x)))

/-- R140: b - a, VF = no borrow. -/
def execSubnReg (x y : RegIdx) (s : State) : Host.Outcome State Fault Refusal :=
  .next (s.advance.setResultAndFlag x (s.getV y - s.getV x) (noBorrow (s.getV y) (s.getV x)))

/-- R141: a << 1, VF = bit 7 of a; Vy is not used. -/
def execShl (x : RegIdx) (s : State) : Host.Outcome State Fault Refusal :=
  .next (s.advance.setResultAndFlag x (s.getV x <<< 1) (highBit (s.getV x)))

/-- R142: V[x] <- rnd AND kk, rnd the cycle's random byte. -/
def execRnd (x : RegIdx) (kk : Byte) (s : State) : Host.Outcome State Fault Refusal :=
  .next (s.advance.setV x (s.random &&& kk))

end Sys2Proof.Machine
end

