-- ==== Sys2Proof/Machine/Control.lean ====
section
/-!
DEFINITION. Control transfer: RET, JP, CALL, JP V0 (spec/41_control_flow.md). In every meaning of this folder the state given
is the one the cycle found, so `s.pc` is A, and `s.advance` is the state after the fetch, PC = A + 2 (40_engine.md R92;
notes/assumptions/5.md).
-/
namespace Sys2Proof.Machine

/-- R110: pop into PC; StackUnderflow on an empty stack. -/
def execRet (s : State) : Host.Outcome State Fault Refusal :=
  match s.advance.pop with
  | some (a, t) => .next (t.setPc a)
  | none => .next (s.raise .stackUnderflow (encodeWord .ret) s.pc)

/-- R111: PC <- nnn. -/
def execJp (nnn : Addr) (s : State) : Host.Outcome State Fault Refusal :=
  .next (s.advance.setPc (zextAddr nnn))

/-- R112: push the address after the CALL, PC <- nnn; StackOverflow on a full stack. -/
def execCall (nnn : Addr) (s : State) : Host.Outcome State Fault Refusal :=
  match s.advance.push s.advance.pc with
  | some t => .next (t.setPc (zextAddr nnn))
  | none => .next (s.raise .stackOverflow (encodeWord (.call nnn)) s.pc)

/-- R113: PC <- nnn + V0, not reduced to 12 bits. -/
def execJpV0 (nnn : Addr) (s : State) : Host.Outcome State Fault Refusal :=
  .next (s.advance.setPc (zextAddr nnn + zextByte (s.getV 0)))

end Sys2Proof.Machine
end

