-- ==== Sys2Proof/Machine/Display.lean ====
section
/-!
DEFINITION. Display and the sprite collision detector (spec/46_display.md R170-R173).
-/
namespace Sys2Proof.Machine

/-- R170: every pixel off. -/
def execCls (s : State) : Host.Outcome State Fault Refusal :=
  .next (s.advance.setFb FrameBuffer.blank)

/-- What Dxyn draws: n sprite rows from I, XORed at (V[x], V[y]), and whether a pixel went from on to off (R171, R172). -/
def State.drawSprite (s : State) (x y : RegIdx) (n : Nat) : Canvas :=
  s.drawRows (s.getV x) (s.getV y) n (s.fb, false)

/-- R171: the drawing, then VF <- the collision, written last. -/
def execDrw (x y : RegIdx) (n : Nat) (s : State) : Host.Outcome State Fault Refusal :=
  .next ((s.advance.setFb (s.drawSprite x y n).1).setFlag (s.drawSprite x y n).2)

end Sys2Proof.Machine
end

