-- ==== Sys2Proof/Machine/IndexMemory.lean ====
section
/-!
DEFINITION. The index register and memory transfers (spec/44_index_memory.md R150-R155). Only Annn, Fx1E and Fx29 write I.
-/
namespace Sys2Proof.Machine

/-- R150: I <- nnn. -/
def execLdI (nnn : Addr) (s : State) : Host.Outcome State Fault Refusal :=
  .next (s.advance.setI (zextAddr nnn))

/-- R151: I <- (I + V[x]) mod 4096; no flag. -/
def execAddI (x : RegIdx) (s : State) : Host.Outcome State Fault Refusal :=
  .next (s.advance.setI (addMod4096 s.i (s.getV x)))

/-- R152: I <- FONT_BASE + 5 * (V[x] AND 0x0F). -/
def execLdF (x : RegIdx) (s : State) : Host.Outcome State Fault Refusal :=
  .next (s.advance.setI (fontAddr (lowNibble (s.getV x))))

/-- R153: the decimal digits of V[x] at I, I + 1, I + 2. -/
def execLdB (x : RegIdx) (s : State) : Host.Outcome State Fault Refusal :=
  .next (s.advance.setMem (s.storeBcd (s.getV x)))

/-- R154: V0..Vx to I..I + x. -/
def execStoreRegs (x : RegIdx) (s : State) : Host.Outcome State Fault Refusal :=
  .next (s.advance.setMem (s.storeBlock (x.val + 1)))

/-- R155: V0..Vx from I..I + x. -/
def execLoadRegs (x : RegIdx) (s : State) : Host.Outcome State Fault Refusal :=
  .next (s.advance.setAllV (s.loadBlock (x.val + 1)).v)

end Sys2Proof.Machine
end

