-- ==== Sys2Proof/Machine/Skip.lean ====
section
/-!
DEFINITION. Conditional skips (spec/42_skip.md R120-R126, 40_engine.md R94).
-/
namespace Sys2Proof.Machine

/-- The fetch advance, and a further 2 where the condition holds (R94). -/
def State.skipIf (s : State) (c : Bool) : State :=
  if c then s.advance.setPc (s.advance.pc + 2) else s.advance

/-- R120: skip if V[x] = kk. -/
def execSeImm (x : RegIdx) (kk : Byte) (s : State) : Host.Outcome State Fault Refusal :=
  .next (s.skipIf (s.getV x == kk))

/-- R121: skip if V[x] != kk. -/
def execSneImm (x : RegIdx) (kk : Byte) (s : State) : Host.Outcome State Fault Refusal :=
  .next (s.skipIf (s.getV x != kk))

/-- R122: skip if V[x] = V[y]. -/
def execSeReg (x y : RegIdx) (s : State) : Host.Outcome State Fault Refusal :=
  .next (s.skipIf (s.getV x == s.getV y))

/-- R123: skip if V[x] != V[y]. -/
def execSneReg (x y : RegIdx) (s : State) : Host.Outcome State Fault Refusal :=
  .next (s.skipIf (s.getV x != s.getV y))

/-- R125: skip if the key V[x] AND 0x0F is pressed. -/
def execSkp (x : RegIdx) (s : State) : Host.Outcome State Fault Refusal :=
  .next (s.skipIf (s.key (lowNibble (s.getV x))))

/-- R126: skip if the key V[x] AND 0x0F is not pressed. -/
def execSknp (x : RegIdx) (s : State) : Host.Outcome State Fault Refusal :=
  .next (s.skipIf (!s.key (lowNibble (s.getV x))))

end Sys2Proof.Machine
end

