-- ==== Sys2Proof/Machine/TimersKeys.lean ====
section
/-!
DEFINITION. Timer and key-wait instructions (spec/45_timers_keys.md R160-R163).
-/
namespace Sys2Proof.Machine

/-- R160: V[x] <- DT. -/
def execLdVxDt (x : RegIdx) (s : State) : Host.Outcome State Fault Refusal :=
  .next (s.advance.setV x s.dt)

/-- R161: V[x] <- the least pressed key; with none pressed, PC <- A and the same instruction executes again. -/
def execLdVxK (x : RegIdx) (s : State) : Host.Outcome State Fault Refusal :=
  match s.lowestKey with
  | some k => .next (s.advance.setV x (byteOfIdx k))
  | none => .next (s.advance.setPc s.pc)

/-- R162: DT <- V[x]. -/
def execLdDtVx (x : RegIdx) (s : State) : Host.Outcome State Fault Refusal :=
  .next (s.advance.setDt (s.getV x))

/-- R163: ST <- V[x]. -/
def execLdStVx (x : RegIdx) (s : State) : Host.Outcome State Fault Refusal :=
  .next (s.advance.setSt (s.getV x))

end Sys2Proof.Machine
end

