-- ==== Sys2Proof/Machine/Environment.lean ====
section
/-!
DEFINITION. What the environment's events do to the state at a cycle boundary (spec/40_engine.md R98): the tick, the keypad
snapshot, the program loader, and the beginning of a cycle. Once FSR.HALTED = 1 no event changes anything (R190, R220;
notes/assumptions/6.md).
-/
namespace Sys2Proof.Machine

/-- One decrement, a value of 0 staying 0 (60_exceptions.md R188). -/
def countDown (b : Byte) : Byte := if b = 0 then 0 else b - 1

/-- `Tick`: each non-zero timer decremented by 1; no effect once halted (R188, R190). -/
def State.tick (s : State) : State :=
  if s.fsr.halted then s else (s.setDt (countDown s.dt)).setSt (countDown s.st)

/-- `SetKeys(k)`: K <- k (R194); no effect once halted (R220). -/
def State.pressKeys (s : State) (k : Keypad) : State :=
  if s.fsr.halted then s else s.setKeys k

/-- The image's bytes copied to consecutive addresses from `a` on (R213). -/
def Memory.copyImage : Memory → Word → List Byte → Memory
  | m, _, [] => m
  | m, a, b :: rest => Memory.copyImage (m.write a b) (a + 1) rest

/-- `Load(bytes)`: the image at PROGRAM_BASE, or ProgramTooLarge, with nothing copied and no opcode or address to record (R180,
R184, R213); no effect once halted (R220). -/
def State.loadImage (s : State) (image : List Byte) : State :=
  if s.fsr.halted then s
  else if Config.maxProgram < image.length then s.raise .programTooLarge 0 0
  else s.setMem (s.mem.copyImage (BitVec.ofNat 16 Config.programBase) image)

/-- The state without the event being taken. -/
def State.withSchedule (s : State) (rest : List Event) : State := { s with schedule := rest }

/-- The beginning of a cycle: one more cycle has begun, and its random byte is the one the event names, if it names one
(R101). -/
def State.beginCycle (s : State) (rnd : Option Byte) : State := { s with cycles := s.cycles + 1, rnd := rnd }

end Sys2Proof.Machine
end

