-- ==== Sys2Proof/Machine/Engine.lean ====
section
/-!
DEFINITION. The fetch-decode-execute engine: one cycle (spec/40_engine.md R90, R100), and the loader's event
(spec/70_reset_and_hazards.md R213).
-/
namespace Sys2Proof.Machine

/-- `Cycle(rnd)`: fetch, decode, execute, enabled only while FSR.HALTED = 0 (R90, R100); a word that matches no row raises
UnknownInstruction with the raw word (R181). -/
def State.cycle (s : State) (rnd : Option Byte) : Host.Outcome State Fault Refusal :=
  if s.fsr.halted then .fault .halted
  else match decodeWord s.fetchWord with
    | .ok i => exec i (s.beginCycle rnd)
    | .error _ => .next ((s.beginCycle rnd).raise .unknownInstruction s.fetchWord s.pc)

/-- `Load(bytes)` as an event: only before the first cycle (R98, R213); no effect once halted (R220). -/
def State.loadEvent (s : State) (image : List Byte) : Host.Outcome State Fault Refusal :=
  if s.fsr.halted || s.cycles == 0 then .next (s.loadImage image) else .refused .loadAfterFirstCycle

end Sys2Proof.Machine
end

