-- ==== Sys2Proof/Machine/Step.lean ====
section
/-!
DEFINITION. One step: the next event of the environment (spec/40_engine.md R98), a cycle (R90) where the schedule names none
(notes/assumptions/1.md, 2.md).
-/
namespace Sys2Proof.Machine

/-- One event of the environment. -/
def step (s : State) : Host.Outcome State Fault Refusal :=
  match s.schedule with
  | [] => s.cycle none
  | .cycle rnd :: rest => (s.withSchedule rest).cycle (some rnd)
  | .tick :: rest => .next (s.withSchedule rest).tick
  | .setKeys k :: rest => .next ((s.withSchedule rest).pressKeys k)
  | .load image :: rest => (s.withSchedule rest).loadEvent image

/-- The state whose very next step fetches and runs the word: it lies at PC, no event is due before the cycle, and the machine
is not halted (notes/assumptions/8.md). -/
def State.withFetchWord (s : State) (nbits w : Nat) : State :=
  { s.placeWord (BitVec.ofNat 16 (w % 2 ^ nbits)) with
    schedule := [], fsr := { s.fsr with halted := false } }

end Sys2Proof.Machine
end

