-- ==== Sys2Proof/Safety.lean ====
section
/-!
DEFINITION. The terms claims are stated in: frames (what an instruction leaves alone), which instruction may write which part of
the state, the condition under which an instruction goes on at A + 2 or skips, and the invariants of the state.
-/
namespace Sys2Proof.Machine

/-! ### Encoding -/

/-- The instruction's word matches the row's mask and match, and is read back as the instruction (30_encoding.md R75). -/
def Encodes (i : Instr) (mask pattern : Word) : Prop :=
  encodeWord i &&& mask = pattern ∧ decodeWord (encodeWord i) = .ok i

/-- The words of the illegal space, by group: the table under 30_encoding.md R80. -/
abbrev IllegalWord (w : Word) : Prop :=
  (opId w = 0x0#4 ∧ w ≠ 0x00E0#16 ∧ w ≠ 0x00EE#16) ∨
  (opId w = 0x5#4 ∧ opN w ≠ 0x0#4) ∨
  (opId w = 0x8#4 ∧ opN w ∈ [0x8#4, 0x9#4, 0xA#4, 0xB#4, 0xC#4, 0xD#4, 0xF#4]) ∨
  (opId w = 0x9#4 ∧ opN w ≠ 0x0#4) ∨
  (opId w = 0xE#4 ∧ opKK w ∉ [0x9E#8, 0xA1#8]) ∨
  (opId w = 0xF#4 ∧ opKK w ∉ [0x07#8, 0x0A#8, 0x15#8, 0x18#8, 0x1E#8, 0x29#8, 0x33#8, 0x55#8, 0x65#8])

/-! ### Frames -/

/-- A part of the state beside the registers V0..VF and PC. -/
inductive Part where
  | index
  | stack
  | delay
  | sound
  | display
  | memory
  deriving DecidableEq, Repr

/-- `t` differs from `s` at most in PC, the named parts and the named registers. Memory and the framebuffer are compared by what
every address and every pixel reads as. K and FSR, which no completed instruction writes (R30, R33), and the environment's
fields are always the same. -/
structure OnlyChanges (parts : List Part) (regs : List RegIdx) (s t : State) : Prop where
  regs : ∀ r, r ∉ regs → t.getV r = s.getV r
  index : Part.index ∉ parts → t.i = s.i
  stack : Part.stack ∉ parts → t.stack = s.stack ∧ t.sp = s.sp
  delay : Part.delay ∉ parts → t.dt = s.dt
  sound : Part.sound ∉ parts → t.st = s.st
  display : Part.display ∉ parts → ∀ x y, t.pixel x y = s.pixel x y
  memory : Part.memory ∉ parts → ∀ a, t.read a = s.read a
  keys : t.keys = s.keys
  fsr : t.fsr = s.fsr
  schedule : t.schedule = s.schedule
  cycles : t.cycles = s.cycles
  rnd : t.rnd = s.rnd

/-- The parts of the state the spec lets an instruction write (10_state.md R23, R25-R29, R31). -/
def writtenParts : Instr → List Part
  | .cls => [.display]
  | .drw _ _ _ => [.display]
  | .ret => [.stack]
  | .call _ => [.stack]
  | .ldI _ | .addI _ | .ldF _ => [.index]
  | .ldDtVx _ => [.delay]
  | .ldStVx _ => [.sound]
  | .ldB _ | .storeRegs _ => [.memory]
  | .jp _ | .seImm _ _ | .sneImm _ _ | .seReg _ _ | .ldImm _ _ | .addImm _ _ | .ldReg _ _ | .orReg _ _ | .andReg _ _
  | .xorReg _ _ | .addReg _ _ | .subReg _ _ | .shr _ _ | .subnReg _ _ | .shl _ _ | .sneReg _ _ | .jpV0 _ | .rnd _ _
  | .skp _ | .sknp _ | .ldVxDt _ | .ldVxK _ | .loadRegs _ => []

/-- The registers the spec lets an instruction write: its named destination, and VF for the six flag writers (R21). -/
def writtenRegs : Instr → List RegIdx
  | .ldImm x _ | .addImm x _ | .ldReg x _ | .orReg x _ | .andReg x _ | .xorReg x _ | .rnd x _ | .ldVxDt x | .ldVxK x => [x]
  | .addReg x _ | .subReg x _ | .shr x _ | .subnReg x _ | .shl x _ => [x, VF]
  | .drw _ _ _ => [VF]
  | .loadRegs x => (List.finRange 16).filter (fun r => decide (r ≤ x))
  | .cls | .ret | .jp _ | .call _ | .seImm _ _ | .sneImm _ _ | .seReg _ _ | .sneReg _ _ | .ldI _ | .jpV0 _ | .skp _
  | .sknp _ | .ldDtVx _ | .ldStVx _ | .addI _ | .ldF _ | .ldB _ | .storeRegs _ => []

/-- How many bytes an instruction stores, from I on: three digits for Fx33 (44_index_memory.md R153), V0..Vx for Fx55 (R154),
none for any other. -/
def storedBytes : Instr → Nat
  | .ldB _ => 3
  | .storeRegs x => x.val + 1
  | .cls | .ret | .jp _ | .call _ | .seImm _ _ | .sneImm _ _ | .seReg _ _ | .ldImm _ _ | .addImm _ _ | .ldReg _ _
  | .orReg _ _ | .andReg _ _ | .xorReg _ _ | .addReg _ _ | .subReg _ _ | .shr _ _ | .subnReg _ _ | .shl _ _
  | .sneReg _ _ | .ldI _ | .jpV0 _ | .rnd _ _ | .drw _ _ _ | .skp _ | .sknp _ | .ldVxDt _ | .ldVxK _ | .ldDtVx _
  | .ldStVx _ | .addI _ | .ldF _ | .loadRegs _ => 0

/-! ### Where an instruction goes on -/

/-- The condition of a skip, where the instruction is one (42_skip.md; the key of the low 4 bits of Vx is the spec's decision D7). -/
def skipCondition (s : State) : Instr → Option Bool
  | .seImm x kk => some (decide (s.getV x = kk))
  | .sneImm x kk => some (decide (s.getV x ≠ kk))
  | .seReg x y => some (decide (s.getV x = s.getV y))
  | .sneReg x y => some (decide (s.getV x ≠ s.getV y))
  | .skp x => some (s.key (lowNibble (s.getV x)))
  | .sknp x => some (!s.key (lowNibble (s.getV x)))
  | .cls | .ret | .jp _ | .call _ | .ldImm _ _ | .addImm _ _ | .ldReg _ _ | .orReg _ _ | .andReg _ _ | .xorReg _ _
  | .addReg _ _ | .subReg _ _ | .shr _ _ | .subnReg _ _ | .shl _ _ | .ldI _ | .jpV0 _ | .rnd _ _ | .drw _ _ _
  | .ldVxDt _ | .ldVxK _ | .ldDtVx _ | .ldStVx _ | .addI _ | .ldF _ | .ldB _ | .storeRegs _ | .loadRegs _ => none

/-- The instructions of the list in 40_engine.md R93, with its conditions: the skips whose condition is false, and Fx0A when a
key is pressed (the key of the low 4 bits of Vx is the spec's decision D7, the level-sensitive Fx0A its decision D8). -/
def goesOnInSequence (s : State) : Instr → Prop
  | .ret | .jp _ | .call _ | .jpV0 _ => False
  | .seImm x kk => s.getV x ≠ kk
  | .sneImm x kk => s.getV x = kk
  | .seReg x y => s.getV x ≠ s.getV y
  | .sneReg x y => s.getV x = s.getV y
  | .skp x => s.key (lowNibble (s.getV x)) = false
  | .sknp x => s.key (lowNibble (s.getV x)) = true
  | .ldVxK _ => ∃ k, s.key k = true
  | .cls | .ldImm _ _ | .addImm _ _ | .ldReg _ _ | .orReg _ _ | .andReg _ _ | .xorReg _ _ | .addReg _ _ | .subReg _ _
  | .shr _ _ | .subnReg _ _ | .shl _ _ | .ldI _ | .rnd _ _ | .drw _ _ _ | .ldVxDt _ | .ldDtVx _ | .ldStVx _ | .addI _
  | .ldF _ | .ldB _ | .storeRegs _ | .loadRegs _ => True

/-- Fx0A stands at PC, no key is pressed and the core runs: the machine waits (45_timers_keys.md R161). -/
structure WaitsForKey (x : RegIdx) (s : State) : Prop where
  running : s.fsr.halted = false
  fetched : decodeWord s.fetchWord = .ok (.ldVxK x)
  noKey : ∀ k, s.key k = false

/-! ### The sprite, as 46_display.md R171 words it -/

/-- Bit column c of sprite row r is set: bit 7 - c of the byte at I + r. -/
def SpriteBit (s : State) (r c : Nat) : Prop := (s.read (s.addrAt r)).getLsbD (7 - c) = true

/-- A set bit of the n-row sprite, drawn at (V[x], V[y]), falls on the pixel (px, py). -/
def SpriteCovers (s : State) (x y : RegIdx) (n px py : Nat) : Prop :=
  ∃ r c, r < n ∧ c < 8 ∧ SpriteBit s r c ∧ px = ((s.getV x).toNat + c) % 64 ∧ py = ((s.getV y).toNat + r) % 32

/-! ### Invariants -/

/-- Memory is in its canonical form, and bits 15:12 of I are 0 (10_state.md R36). -/
structure StorageForm (s : State) : Prop where
  memory : s.mem.wf
  index : s.i.toNat < 4096

/-- What FSR says of a halted machine (60_exceptions.md R180, R186): the condition still holds in the state that is surfaced,
which is the state at the fault. -/
inductive FaultHolds (s : State) : Prop where
  | unknownInstruction (code : s.fsr.kind = 1) (word : s.fsr.opcode = s.fetchWord) (addr : s.fsr.fpc = s.pc)
      (illegal : IllegalWord s.fsr.opcode)
  | stackOverflow (code : s.fsr.kind = 2) (word : s.fsr.opcode = s.fetchWord) (addr : s.fsr.fpc = s.pc)
      (call : opId s.fsr.opcode = 0x2#4) (full : s.sp.val = 16)
  | stackUnderflow (code : s.fsr.kind = 3) (word : s.fsr.opcode = s.fetchWord) (addr : s.fsr.fpc = s.pc)
      (ret : s.fsr.opcode = 0x00EE#16) (empty : s.sp.val = 0)
  | programTooLarge (code : s.fsr.kind = 4) (word : s.fsr.opcode = 0) (addr : s.fsr.fpc = 0) (first : s.cycles = 0)

/-- FSR is clear while the core runs, and records a condition that holds once it is halted (R33, R180). -/
structure FaultRecord (s : State) : Prop where
  running : s.fsr.halted = false → s.fsr = Fsr.clear
  stopped : s.fsr.halted = true → FaultHolds s

end Sys2Proof.Machine
end

