-- ==== Sys2Proof/Certificates/Slice0/Obligations.lean ====
section
/-!
DEFINITION. The statements for the provers. "Derived" in OBLIGATIONS.json marks those that rest on a clause the spec marks as its
own decision (92_eei_decisions.md) or inference, or on a choice of the model; the docstring names it.
-/
open Sys2Proof Sys2Proof.Machine

/-! ### Encoding and decoding -/

/-- Words written out from the formats of 30_encoding.md R74 decode to the instructions they stand for, one of each family. -/
def Obligations.WordsOfTheOpcodeMapDecode : Prop :=
  decodeWord 0b0001001000101000 = .ok (.jp 0x228) ∧
  decodeWord 0b0011001101000010 = .ok (.seImm 3 0x42) ∧
  decodeWord 0b1000000000010100 = .ok (.addReg 0 1) ∧
  decodeWord 0b1010000100100011 = .ok (.ldI 0x123) ∧
  decodeWord 0b1111001101010101 = .ok (.storeRegs 3) ∧
  decodeWord 0b1111001000001010 = .ok (.ldVxK 2) ∧
  decodeWord 0b1101000100100101 = .ok (.drw 1 2 5) ∧
  decodeWord 0b0000000011101110 = .ok .ret

/-- Decode of encode is the instruction, with every operand at every value the encoding admits, whatever bytes follow. -/
def Obligations.DecodeOfEncodeIsTheInstruction : Prop :=
  ∀ (i : Instr) (rest : List Byte), i.WellFormed → decode (encode i ++ rest) = .ok (i, rest)

/-- The other direction: a word is read as an instruction only if it is that instruction's word, and what is read is
well-formed. -/
def Obligations.EveryDecodedWordIsItsInstructionsWord : Prop :=
  ∀ (w : Word) (i : Instr), decodeWord w = .ok i → i.WellFormed ∧ encodeWord i = w

/-- R75: the decoder reads a word as an instruction of a row exactly where (op AND mask) = match, and no word selects two rows
(the count of the words is the spec's own inference and is not stated). -/
def Obligations.DecoderSelectsTheRowOfTheOpcodeMap : Prop :=
  (∀ (w : Word), ∀ r ∈ opcodeMap, r.selects w = true ↔ ∃ i, decodeWord w = .ok i ∧ i.row = r) ∧
  ∀ (w : Word), ∀ r ∈ opcodeMap, ∀ r' ∈ opcodeMap, r.selects w = true → r'.selects w = true → r = r'

/-- R78: groups 0x5 and 0x9 hold one instruction each and require n = 0; every other word of them is illegal (that the digit must
match is the spec's decision D23). -/
def Obligations.GroupsFiveAndNineRequireAZeroNibble : Prop :=
  ∀ (w : Word),
    (opId w = 0x5#4 → decodeWord w = if opN w = 0x0#4 then .ok (.seReg (opX w) (opY w)) else .error (.unknownInstruction w)) ∧
    (opId w = 0x9#4 → decodeWord w = if opN w = 0x0#4 then .ok (.sneReg (opX w) (opY w)) else .error (.unknownInstruction w))

/-- The words of the table under R80, and no others, are refused, each with the raw word. (That every constant digit of a pattern
is checked is the spec's decision D23.) -/
def Obligations.ExactlyTheIllegalWordsAreRefused : Prop :=
  ∀ (w : Word), (IllegalWord w → decodeWord w = .error (.unknownInstruction w)) ∧
    (¬ IllegalWord w → ∃ i, decodeWord w = .ok i)

/-! ### Reset and memory -/

/-- R211: the values reset leaves. (The font's bytes and place are the spec's decision D9; the last clause, the environment's
fields, is the model's choice, logs 2 and 3.) -/
def Obligations.ResetLeavesTheStatedValues : Prop :=
  (∀ r, State.reset.getV r = 0) ∧ State.reset.i = 0 ∧ State.reset.pc = 0x0200 ∧
  (∀ k : Fin 16, State.reset.stack[k] = 0) ∧ State.reset.sp = 0 ∧ State.reset.dt = 0 ∧ State.reset.st = 0 ∧
  (∀ x y, State.reset.pixel x y = false) ∧ (∀ k, State.reset.key k = false) ∧
  (∀ a : Word, State.reset.read a = if a.toNat % 4096 < 80 then fontTable.getD (a.toNat % 4096) 0 else 0) ∧
  State.reset.fsr = { halted := false, kind := 0, opcode := 0, fpc := 0 } ∧
  State.reset.schedule = [] ∧ State.reset.cycles = 0

/-- R51, R52: a write changes the byte its masked address names and no other (masking is the spec's decision D2). -/
def Obligations.WriteChangesOnlyTheMaskedAddress : Prop :=
  ∀ (m : Memory) (a b : Word) (v : Byte),
    (m.write a v).read b = if b.toNat % 4096 = a.toNat % 4096 then v else m.read b

/-- Memories in the canonical form that read alike are equal data (the form is the model's choice, log 11). -/
def Obligations.CanonicalMemoriesThatReadAlikeAreEqual : Prop :=
  ∀ (m m' : Memory), m.wf → m'.wf → (∀ a, m.read a = m'.read a) → m = m'

/-- R64: a store is seen by the very next fetch (the order of the two bytes is the spec's decision D1). -/
def Obligations.StoredBytesAreFetchedByTheNextCycle : Prop :=
  ∀ (x : RegIdx) (s : State), 1 ≤ x.val →
    ∃ t, exec (.storeRegs x) s = .next t ∧
      (t.pc.toNat % 4096 = s.i.toNat % 4096 → t.fetchWord.toNat = (s.getV 0).toNat * 256 + (s.getV 1).toNat)

/-! ### The engine and its environment -/

/-- A step at a running state whose bytes at PC decode to an instruction is `exec` of it, on the state in which the model's own
fields alone say that the cycle has begun: with no event due, with the free random byte; with a cycle due, with the byte it
names (the schedule is the model's choice, logs 1 to 3; the byte order is D1). -/
def Obligations.StepRunsTheDecodedInstruction : Prop :=
  ∀ (s : State) (i : Instr), s.fsr.halted = false →
    decode [s.read s.pc, s.read (s.pc + 1)] = .ok (i, []) →
    (s.schedule = [] → step s = exec i { s with cycles := s.cycles + 1, rnd := none }) ∧
    (∀ b rest, s.schedule = .cycle b :: rest →
      step s = exec i { s with schedule := rest, cycles := s.cycles + 1, rnd := some b })

/-- R181, R186: a word of the illegal space raises UnknownInstruction: FSR records the word and its address, and everything
else is as the cycle found it (FSR and the rollback are the spec's decision D11; the model's own fields, log 3). -/
def Obligations.UnknownInstructionHaltsPrecisely : Prop :=
  ∀ (s : State), s.fsr.halted = false → IllegalWord s.fetchWord →
    (s.schedule = [] → step s = .next { s with
      fsr := { halted := true, kind := 1, opcode := s.fetchWord, fpc := s.pc }, cycles := s.cycles + 1, rnd := none }) ∧
    (∀ b rest, s.schedule = .cycle b :: rest → step s = .next { s with
      fsr := { halted := true, kind := 1, opcode := s.fetchWord, fpc := s.pc },
      schedule := rest, cycles := s.cycles + 1, rnd := some b })

/-- R187, R190, R220: once halted, any number of steps changes nothing but the schedule, which is read on (that keypad writes and
loads are without effect too is log 6). -/
def Obligations.HaltedMachineNeverChanges : Prop :=
  ∀ (n : Nat) (s t : State), s.fsr.halted = true → core.run n s = .next t → t = { s with schedule := t.schedule }

/-- When a step stops: with the fault `halted` exactly where a cycle is due at a halted machine (R100), and with a refusal
exactly where a load is due at a running machine after the first cycle (R98; log 7). Nothing else stops (R185). -/
def Obligations.StepStopsOnlyWhenHaltedOrLateLoad : Prop :=
  ∀ (s : State),
    ((∃ r, step s = .fault r) ↔
      s.fsr.halted = true ∧ (s.schedule = [] ∨ ∃ b rest, s.schedule = .cycle b :: rest)) ∧
    ((∃ r, step s = .refused r) ↔
      s.fsr.halted = false ∧ s.cycles ≠ 0 ∧ ∃ image rest, s.schedule = .load image :: rest)

/-- R188: a tick takes 1 from each timer that is not 0, leaves a timer at 0, and changes nothing else. -/
def Obligations.TickCountsBothTimersDown : Prop :=
  ∀ (s : State), s.fsr.halted = false →
    s.tick.dt.toNat = s.dt.toNat - 1 ∧ s.tick.st.toNat = s.st.toNat - 1 ∧
    s.tick.pc = s.pc ∧ OnlyChanges [.delay, .sound] [] s s.tick

/-- n ticks due at a running machine take n from each timer, stopping at 0, and change nothing else (R188; that a step takes one
event of the schedule is log 1). -/
def Obligations.TicksCountTheTimersToZero : Prop :=
  ∀ (n : Nat) (s : State) (rest : List Event), s.fsr.halted = false →
    s.schedule = List.replicate n .tick ++ rest →
    core.run n s = .next { s with
      dt := BitVec.ofNat 8 (s.dt.toNat - n), st := BitVec.ofNat 8 (s.st.toNat - n), schedule := rest }

/-- R194: a keypad event replaces K and nothing else (that a step takes one event of the schedule is log 1). -/
def Obligations.KeypadEventReplacesTheSnapshot : Prop :=
  ∀ (s : State) (k : Keypad) (rest : List Event), s.fsr.halted = false → s.schedule = .setKeys k :: rest →
    step s = .next { s with keys := k, schedule := rest }

/-- R213: a load before the first cycle copies byte i of the image to 0x200 + i and changes nothing else (the schedule is
log 1; addresses are masked, D2). -/
def Obligations.LoadCopiesTheImage : Prop :=
  ∀ (s : State) (image : List Byte) (rest : List Event), s.fsr.halted = false → s.cycles = 0 →
    s.schedule = .load image :: rest → image.length ≤ 0xE00 →
    ∃ t, step s = .next t ∧ t.schedule = rest ∧ { t with mem := s.mem, schedule := s.schedule } = s ∧
      ∀ a : Word, t.read a =
        if 0x200 ≤ a.toNat % 4096 ∧ a.toNat % 4096 < 0x200 + image.length
        then image.getD (a.toNat % 4096 - 0x200) 0 else s.read a

/-- R184, R213: a longer image raises ProgramTooLarge and copies nothing (FSR and the atomic failure are the spec's decisions
D11, D22). -/
def Obligations.OversizedImageHaltsBeforeTheFirstCycle : Prop :=
  ∀ (s : State) (image : List Byte) (rest : List Event), s.fsr.halted = false → s.cycles = 0 →
    s.schedule = .load image :: rest → 0xE00 < image.length →
    step s = .next { s with schedule := rest, fsr := { halted := true, kind := 4, opcode := 0, fpc := 0 } }

/-! ### Rules over all instructions -/

/-- R197: every one of the 34 instructions may execute at every time (one mode is the spec's decision D16). -/
def Obligations.EveryInstructionAnswersANextState : Prop :=
  ∀ (i : Instr) (s : State), ∃ t, exec i s = .next t

/-- R182, R183, R195: the only conditions a legal word raises are StackOverflow by 2nnn with SP = 16 and StackUnderflow by 00EE
with SP = 0; a cycle that raises changes FSR alone (D11). -/
def Obligations.OnlyCallAndReturnRaise : Prop :=
  ∀ (i : Instr) (s t : State), exec i s = .next t →
    t.fsr = s.fsr ∨
    (∃ nnn, i = .call nnn ∧ s.sp = 16 ∧ t = { s with fsr := t.fsr }) ∨
    (i = .ret ∧ s.sp = 0 ∧ t = { s with fsr := t.fsr })

/-- The frame of every instruction: it leaves alone everything but PC, the parts and registers the spec lets it write, and FSR where
it raises; in memory, every address but those of its stored bytes, at I on, masked (R21, R23, R25, R27-R31; that unnamed
effects do not happen is the spec's decision D26; masking is D2). -/
def Obligations.EveryInstructionWritesOnlyWhatItsRuleNames : Prop :=
  ∀ (i : Instr) (s t : State), exec i s = .next t →
    OnlyChanges (writtenParts i) (writtenRegs i) s { t with fsr := s.fsr } ∧
    ∀ a : Word, (∀ k < storedBytes i, maskAddr a ≠ maskAddr (s.addrAt k)) → t.read a = s.read a

/-- R93: the instructions of its list end their cycle with PC = (A + 2) mod 65536. (The key of Ex9E and ExA1 is the low 4 bits of
Vx, the spec's decision D7, and Fx0A goes on while a key is pressed, its decision D8; log 13.) -/
def Obligations.SequentialInstructionsAdvancePcByTwo : Prop :=
  ∀ (i : Instr) (s : State), goesOnInSequence s i →
    ∃ t, exec i s = .next t ∧ t.pc.toNat = (s.pc.toNat + 2) % 65536

/-- R94: a skip whose condition holds ends its cycle with PC = (A + 4) mod 65536, whatever word stands at A + 2. (The key of Ex9E
and ExA1 is the low 4 bits of Vx, the spec's decision D7; log 13.) -/
def Obligations.TakenSkipsAdvancePcByFour : Prop :=
  ∀ (i : Instr) (s : State), skipCondition s i = some true →
    ∃ t, exec i s = .next t ∧ t.pc.toNat = (s.pc.toNat + 4) % 65536 ∧ OnlyChanges [] [] s t

/-! ### Invariants -/

/-- Every step keeps memory in its canonical form and bits 15:12 of I at 0 (R36; the form of memory is log 11). -/
def Obligations.StepKeepsStorageForm : Prop :=
  ∀ (s t : State), StorageForm s → step s = .next t → StorageForm t

/-- Every step keeps FSR truthful: clear while the core runs; once it is halted, a code of R180 whose condition holds in the
state surfaced (D11). -/
def Obligations.StepKeepsTheFaultRecord : Prop :=
  ∀ (s t : State), FaultRecord s → step s = .next t → FaultRecord t

/-- Reset meets both invariants. -/
def Obligations.ResetMeetsTheInvariants : Prop :=
  StorageForm State.reset ∧ FaultRecord State.reset

/-! ### Control transfer -/

/-- R111. -/
def Obligations.JumpSetsPcToTheAddress : Prop :=
  ∀ (nnn : Addr) (s : State), Encodes (.jp nnn) 0xF000#16 0x1000#16 ∧
    ∃ t, exec (.jp nnn) s = .next t ∧ t.pc.toNat = nnn.toNat ∧ OnlyChanges [] [] s t

/-- R113: the sum is not reduced to 12 bits (the spec's decision D3). -/
def Obligations.JumpWithOffsetAddsV0 : Prop :=
  ∀ (nnn : Addr) (s : State),
    ∃ t, exec (.jpV0 nnn) s = .next t ∧ t.pc.toNat = nnn.toNat + (s.getV 0).toNat ∧ OnlyChanges [] [] s t

/-- R112: with an entry free, CALL pushes the address after it and goes to nnn (D4, D24). -/
def Obligations.CallPushesTheAddressAfterIt : Prop :=
  ∀ (nnn : Addr) (s : State), s.sp ≠ 16 →
    ∃ t, exec (.call nnn) s = .next t ∧ t.pc.toNat = nnn.toNat ∧ t.sp.val = s.sp.val + 1 ∧
      (∀ k : Fin 16, t.stack[k] = if k.val = s.sp.val then s.pc + 2 else s.stack[k]) ∧ OnlyChanges [.stack] [] s t

/-- R110: with an entry in use, RET sets PC to the top entry, as it is, and SP falls by 1; the entries stay (D19, D24). -/
def Obligations.ReturnPopsTheTopEntry : Prop :=
  ∀ (s : State), s.sp ≠ 0 →
    ∃ t, exec .ret s = .next t ∧ s.stack[s.sp.val - 1]? = some t.pc ∧ t.sp.val + 1 = s.sp.val ∧ t.stack = s.stack ∧
      OnlyChanges [.stack] [] s t

/-- R182, R183, R186: with 16 entries in use CALL raises StackOverflow, with none in use RET raises StackUnderflow, and
everything but FSR stays as it was (D11). -/
def Obligations.StackBoundsRaisePrecisely : Prop :=
  (∀ (nnn : Addr) (s : State), s.sp = 16 →
    exec (.call nnn) s = .next { s with
      fsr := { halted := true, kind := 2, opcode := BitVec.ofNat 16 (0x2000 + nnn.toNat), fpc := s.pc } }) ∧
  (∀ (s : State), s.sp = 0 →
    exec .ret s = .next { s with fsr := { halted := true, kind := 3, opcode := 0x00EE, fpc := s.pc } })

/-- R110, R112: a RET that finds the stack as the CALL left it resumes at the instruction after the CALL, with the SP there was
before (D4). -/
def Obligations.ReturnResumesAfterTheCall : Prop :=
  ∀ (nnn : Addr) (s u : State), s.sp ≠ 16 →
    ∃ t, exec (.call nnn) s = .next t ∧
      (u.stack = t.stack → u.sp = t.sp →
        ∃ w, exec .ret u = .next w ∧ w.pc.toNat = (s.pc.toNat + 2) % 65536 ∧ w.sp = s.sp)

/-! ### Skips -/

/-- R120, R121. -/
def Obligations.ImmediateSkipsCompareTheRegister : Prop :=
  ∀ (x : RegIdx) (kk : Byte) (s : State),
    Encodes (.seImm x kk) 0xF000#16 0x3000#16 ∧ Encodes (.sneImm x kk) 0xF000#16 0x4000#16 ∧
    (∃ t, exec (.seImm x kk) s = .next t ∧
      t.pc.toNat = (s.pc.toNat + if s.getV x = kk then 4 else 2) % 65536 ∧ OnlyChanges [] [] s t) ∧
    (∃ t, exec (.sneImm x kk) s = .next t ∧
      t.pc.toNat = (s.pc.toNat + if s.getV x ≠ kk then 4 else 2) % 65536 ∧ OnlyChanges [] [] s t)

/-- R122, R123. -/
def Obligations.RegisterSkipsCompareTwoRegisters : Prop :=
  ∀ (x y : RegIdx) (s : State),
    Encodes (.seReg x y) 0xF00F#16 0x5000#16 ∧ Encodes (.sneReg x y) 0xF00F#16 0x9000#16 ∧
    (∃ t, exec (.seReg x y) s = .next t ∧
      t.pc.toNat = (s.pc.toNat + if s.getV x = s.getV y then 4 else 2) % 65536 ∧ OnlyChanges [] [] s t) ∧
    (∃ t, exec (.sneReg x y) s = .next t ∧
      t.pc.toNat = (s.pc.toNat + if s.getV x ≠ s.getV y then 4 else 2) % 65536 ∧ OnlyChanges [] [] s t)

/-- R124-R126: the key is the low 4 bits of Vx (the spec's decision D7), given here as a number `key` below 16. -/
def Obligations.KeySkipsTestTheKeyOfTheLowNibble : Prop :=
  ∀ (x key : RegIdx) (s : State), key.val = (s.getV x).toNat % 16 →
    (∃ t, exec (.skp x) s = .next t ∧
      t.pc.toNat = (s.pc.toNat + if s.key key = true then 4 else 2) % 65536 ∧ OnlyChanges [] [] s t) ∧
    (∃ t, exec (.sknp x) s = .next t ∧
      t.pc.toNat = (s.pc.toNat + if s.key key = false then 4 else 2) % 65536 ∧ OnlyChanges [] [] s t)

/-! ### Arithmetic and logic -/

/-- R131, R133. -/
def Obligations.LoadsSetTheRegister : Prop :=
  ∀ (x y : RegIdx) (kk : Byte) (s : State),
    Encodes (.ldImm x kk) 0xF000#16 0x6000#16 ∧ Encodes (.ldReg x y) 0xF00F#16 0x8000#16 ∧
    (∃ t, exec (.ldImm x kk) s = .next t ∧ t.getV x = kk ∧ t.pc = s.pc + 2 ∧ OnlyChanges [] [x] s t) ∧
    (∃ t, exec (.ldReg x y) s = .next t ∧ t.getV x = s.getV y ∧ t.pc = s.pc + 2 ∧ OnlyChanges [] [x] s t)

/-- R132: no carry is reported (the spec's decision D26). -/
def Obligations.AddImmediateWrapsWithNoFlag : Prop :=
  ∀ (x : RegIdx) (kk : Byte) (s : State),
    ∃ t, exec (.addImm x kk) s = .next t ∧ (t.getV x).toNat = ((s.getV x).toNat + kk.toNat) % 256 ∧ t.pc = s.pc + 2 ∧
      OnlyChanges [] [x] s t

/-- R134-R136, bit by bit; VF is not reset (the spec's decision D26). -/
def Obligations.LogicWorksBitByBitWithNoFlag : Prop :=
  ∀ (x y : RegIdx) (s : State),
    (∃ t, exec (.orReg x y) s = .next t ∧ t.pc = s.pc + 2 ∧ OnlyChanges [] [x] s t ∧
      ∀ k < 8, (t.getV x).getLsbD k = ((s.getV x).getLsbD k || (s.getV y).getLsbD k)) ∧
    (∃ t, exec (.andReg x y) s = .next t ∧ t.pc = s.pc + 2 ∧ OnlyChanges [] [x] s t ∧
      ∀ k < 8, (t.getV x).getLsbD k = ((s.getV x).getLsbD k && (s.getV y).getLsbD k)) ∧
    (∃ t, exec (.xorReg x y) s = .next t ∧ t.pc = s.pc + 2 ∧ OnlyChanges [] [x] s t ∧
      ∀ k < 8, (t.getV x).getLsbD k = ((s.getV x).getLsbD k).xor ((s.getV y).getLsbD k))

/-- R137: the sum modulo 256 and the carry; with x = F the carry alone remains (R130, the spec's decision D5). -/
def Obligations.AddSetsTheCarry : Prop :=
  ∀ (x y : RegIdx) (s : State),
    ∃ t, exec (.addReg x y) s = .next t ∧ t.pc = s.pc + 2 ∧ OnlyChanges [] [x, VF] s t ∧
      (x ≠ VF → (t.getV x).toNat = ((s.getV x).toNat + (s.getV y).toNat) % 256) ∧
      (t.getV VF).toNat = if (s.getV x).toNat + (s.getV y).toNat > 255 then 1 else 0

/-- R138, R140: the difference modulo 256, VF = no borrow; with x = F the flag alone remains (R130, D5). -/
def Obligations.SubtractionsSetNoBorrow : Prop :=
  ∀ (x y : RegIdx) (s : State),
    (∃ t, exec (.subReg x y) s = .next t ∧ t.pc = s.pc + 2 ∧ OnlyChanges [] [x, VF] s t ∧
      (x ≠ VF → ((t.getV x).toNat : Int) = ((s.getV x).toNat - (s.getV y).toNat : Int) % 256) ∧
      (t.getV VF).toNat = if (s.getV x).toNat ≥ (s.getV y).toNat then 1 else 0) ∧
    (∃ t, exec (.subnReg x y) s = .next t ∧ t.pc = s.pc + 2 ∧ OnlyChanges [] [x, VF] s t ∧
      (x ≠ VF → ((t.getV x).toNat : Int) = ((s.getV y).toNat - (s.getV x).toNat : Int) % 256) ∧
      (t.getV VF).toNat = if (s.getV y).toNat ≥ (s.getV x).toNat then 1 else 0)

/-- R139, R141: Vx is shifted whatever y is, VF = the bit shifted out; with x = F the flag alone remains (R130, D5). -/
def Obligations.ShiftsSetTheBitShiftedOut : Prop :=
  ∀ (x y : RegIdx) (s : State),
    (∃ t, exec (.shr x y) s = .next t ∧ t.pc = s.pc + 2 ∧ OnlyChanges [] [x, VF] s t ∧
      (x ≠ VF → (t.getV x).toNat = (s.getV x).toNat / 2) ∧ (t.getV VF).toNat = (s.getV x).toNat % 2) ∧
    (∃ t, exec (.shl x y) s = .next t ∧ t.pc = s.pc + 2 ∧ OnlyChanges [] [x, VF] s t ∧
      (x ≠ VF → (t.getV x).toNat = (s.getV x).toNat * 2 % 256) ∧ (t.getV VF).toNat = (s.getV x).toNat / 128)

/-- R142: for every random byte, Vx is that byte AND kk (the byte is the environment's, D10; log 3). The first clause is for a
cycle whose event names the byte, the second for one whose byte is the free value. -/
def Obligations.RandomIsTheCyclesByteMasked : Prop :=
  ∀ (x : RegIdx) (kk : Byte) (s : State),
    ∃ t, exec (.rnd x kk) s = .next t ∧ t.pc = s.pc + 2 ∧ OnlyChanges [] [x] s t ∧
      (∀ b, s.rnd = some b → t.getV x = b &&& kk) ∧
      (s.rnd = none → t.getV x = Config.randomByte s.cycles &&& kk)

/-! ### Index register and memory -/

/-- R150. -/
def Obligations.LoadIndexSetsTheAddress : Prop :=
  ∀ (nnn : Addr) (s : State), Encodes (.ldI nnn) 0xF000#16 0xA000#16 ∧
    ∃ t, exec (.ldI nnn) s = .next t ∧ t.i.toNat = nnn.toNat ∧ t.pc = s.pc + 2 ∧ OnlyChanges [.index] [] s t

/-- R151: modulo 4096, no flag (the spec's decision D26). -/
def Obligations.AddIndexWrapsAt4096 : Prop :=
  ∀ (x : RegIdx) (s : State),
    ∃ t, exec (.addI x) s = .next t ∧ t.i.toNat = (s.i.toNat + (s.getV x).toNat) % 4096 ∧ t.pc = s.pc + 2 ∧
      OnlyChanges [.index] [] s t

/-- R152: the glyph of the low nibble, at 5 bytes a glyph from FONT_BASE = 0 (the spec's decision D9). -/
def Obligations.LoadFontPointsAtTheGlyph : Prop :=
  ∀ (x : RegIdx) (s : State),
    ∃ t, exec (.ldF x) s = .next t ∧ t.i.toNat = 5 * ((s.getV x).toNat % 16) ∧ t.pc = s.pc + 2 ∧
      OnlyChanges [.index] [] s t

/-- R153: the three decimal digits at I, I + 1, I + 2, each address masked (D2), and every other byte as before. -/
def Obligations.BcdStoresThreeDigits : Prop :=
  ∀ (x : RegIdx) (s : State),
    ∃ t, exec (.ldB x) s = .next t ∧ t.pc = s.pc + 2 ∧ OnlyChanges [.memory] [] s t ∧
      (t.read (s.addrAt 0)).toNat = (s.getV x).toNat / 100 ∧
      (t.read (s.addrAt 1)).toNat = (s.getV x).toNat / 10 % 10 ∧
      (t.read (s.addrAt 2)).toNat = (s.getV x).toNat % 10 ∧
      ∀ a : Word, (∀ k < 3, maskAddr a ≠ maskAddr (s.addrAt k)) → t.read a = s.read a

/-- R154: V0..Vx at I..I + x, each address masked (D2), and every other byte as before; I stays (D26). -/
def Obligations.StoreBlockWritesTheRegisters : Prop :=
  ∀ (x : RegIdx) (s : State),
    ∃ t, exec (.storeRegs x) s = .next t ∧ t.pc = s.pc + 2 ∧ OnlyChanges [.memory] [] s t ∧
      (∀ r : RegIdx, r ≤ x → t.read (s.addrAt r.val) = s.getV r) ∧
      ∀ a : Word, (∀ k ≤ x.val, maskAddr a ≠ maskAddr (s.addrAt k)) → t.read a = s.read a

/-- R155: V0..Vx from I..I + x, each address masked (D2), and the registers above as before; I stays (D26). -/
def Obligations.LoadBlockReadsTheRegisters : Prop :=
  ∀ (x : RegIdx) (s : State),
    ∃ t, exec (.loadRegs x) s = .next t ∧ t.pc = s.pc + 2 ∧
      OnlyChanges [] ((List.finRange 16).filter (fun r => decide (r ≤ x))) s t ∧
      ∀ r : RegIdx, r ≤ x → t.getV r = s.read (s.addrAt r.val)

/-- R155's round trip: registers stored and then loaded, with I and memory untouched in between and the registers changed at
will, are what they were (D26: I stays). -/
def Obligations.StoreThenLoadRestoresTheRegisters : Prop :=
  ∀ (x : RegIdx) (s u : State),
    ∃ t, exec (.storeRegs x) s = .next t ∧
      (u.i = t.i → u.mem = t.mem → ∃ w, exec (.loadRegs x) u = .next w ∧ ∀ r : RegIdx, r ≤ x → w.getV r = s.getV r)

/-! ### Timers and keys -/

/-- R160. -/
def Obligations.ReadDelayTimer : Prop :=
  ∀ (x : RegIdx) (s : State), Encodes (.ldVxDt x) 0xF0FF#16 0xF007#16 ∧
    ∃ t, exec (.ldVxDt x) s = .next t ∧ t.getV x = s.dt ∧ t.pc = s.pc + 2 ∧ OnlyChanges [] [x] s t

/-- R162's effect; that the first decrement comes with the next tick, which is the spec's own inference, is R188's. -/
def Obligations.SetDelayTimer : Prop :=
  ∀ (x : RegIdx) (s : State),
    ∃ t, exec (.ldDtVx x) s = .next t ∧ t.dt = s.getV x ∧ t.pc = s.pc + 2 ∧ OnlyChanges [.delay] [] s t

/-- R163: ST is loaded, and the sound output is active exactly while it is not 0: V[x] = 1 gives a tone that ends at the next
tick, V[x] = 0 silences at once. -/
def Obligations.SetSoundTimer : Prop :=
  ∀ (x : RegIdx) (s : State), Encodes (.ldStVx x) 0xF0FF#16 0xF018#16 ∧
    ∃ t, exec (.ldStVx x) s = .next t ∧ t.st = s.getV x ∧ t.pc = s.pc + 2 ∧ OnlyChanges [.sound] [] s t ∧
      (t.soundOn = true ↔ s.getV x ≠ 0) ∧
      (s.fsr.halted = false → s.getV x = 1 → t.soundOn = true ∧ t.tick.soundOn = false)

/-- R161 with a key pressed: Vx is the least pressed key (the spec's decision D8). -/
def Obligations.WaitTakesTheLeastPressedKey : Prop :=
  ∀ (x k : RegIdx) (s : State), s.key k = true → (∀ j, j < k → s.key j = false) →
    ∃ t, exec (.ldVxK x) s = .next t ∧ (t.getV x).toNat = k.val ∧ t.pc = s.pc + 2 ∧ OnlyChanges [] [x] s t

/-- R161 with no key pressed: PC is A again and nothing has changed (D8). -/
def Obligations.WaitWithNoKeyChangesNothing : Prop :=
  ∀ (x : RegIdx) (s : State), (∀ k, s.key k = false) → exec (.ldVxK x) s = .next s

/-- R161, R191, R199: while Fx0A waits, any mixture of cycles and ticks leaves the machine waiting with every register and
memory unchanged, and the timers have counted exactly the ticks (the schedule is log 1). -/
def Obligations.WaitingLetsTheTimersCount : Prop :=
  ∀ (x : RegIdx) (events rest : List Event) (s : State), WaitsForKey x s →
    s.schedule = events ++ rest → (∀ e ∈ events, e = .tick ∨ ∃ b, e = .cycle b) →
    ∃ t, core.run events.length s = .next t ∧ WaitsForKey x t ∧
      { t with schedule := s.schedule, cycles := s.cycles, rnd := s.rnd, dt := s.dt, st := s.st } = s ∧
      t.schedule = rest ∧ t.dt.toNat = s.dt.toNat - events.count .tick ∧ t.st.toNat = s.st.toNat - events.count .tick

/-! ### Display -/

/-- R170. -/
def Obligations.ClearTurnsEveryPixelOff : Prop :=
  ∀ (s : State), Encodes .cls 0xFFFF#16 0x00E0#16 ∧
    ∃ t, exec .cls s = .next t ∧ (∀ x y, t.pixel x y = false) ∧ t.pc = s.pc + 2 ∧ OnlyChanges [.display] [] s t

/-- R171-R173: every pixel a set bit of the sprite falls on changes, every other stays; VF is 1 exactly if one of them was on;
the coordinates are the old Vx and Vy, wrapped on both axes (bit 7 leftmost is the spec's decision D28; reads before writes,
D6). -/
def Obligations.DrawXorsTheSpriteAndReportsCollision : Prop :=
  ∀ (x y : RegIdx) (n : Nat) (s : State), (Instr.drw x y n).WellFormed →
    ∃ t, exec (.drw x y n) s = .next t ∧ t.pc = s.pc + 2 ∧ OnlyChanges [.display] [VF] s t ∧
      (∀ px < 64, ∀ py < 32,
        (SpriteCovers s x y n px py → t.pixel px py = !s.pixel px py) ∧
        (¬ SpriteCovers s x y n px py → t.pixel px py = s.pixel px py)) ∧
      ((∃ px py, SpriteCovers s x y n px py ∧ s.pixel px py = true) → t.getV VF = 1) ∧
      ((¬ ∃ px py, SpriteCovers s x y n px py ∧ s.pixel px py = true) → t.getV VF = 0)

/-- The source's property of R171: the same sprite drawn twice at the same place restores the display; the second draw collides
exactly if the first turned a pixel on (D28, D6). -/
def Obligations.DrawingTwiceRestoresTheDisplay : Prop :=
  ∀ (x y : RegIdx) (n : Nat) (s : State), x ≠ VF → y ≠ VF → (Instr.drw x y n).WellFormed →
    ∃ t u, exec (.drw x y n) s = .next t ∧ exec (.drw x y n) t = .next u ∧
      (∀ px py, u.pixel px py = s.pixel px py) ∧
      (u.getV VF = 1 ↔ ∃ px py, SpriteCovers s x y n px py ∧ s.pixel px py = false)
end

