-- ==== Sys2Proof/Laws/Decode.lean ====
section
/-!
SUPPORT. The fields of a word and the words of the formats as numbers (30_encoding.md R71, R74); hence the fields of an encoded
word, and a word as its fields.
-/
namespace Sys2Proof

/-- Two bit vectors side by side, as a number. -/
theorem append_toNat {m n : Nat} (a : BitVec m) (b : BitVec n) : (a ++ b).toNat = a.toNat * 2 ^ n + b.toNat := by
  rw [BitVec.toNat_append, ← Nat.shiftLeft_add_eq_or_of_lt b.isLt, Nat.shiftLeft_eq]

theorem opId_toNat (w : Word) : (opId w).toNat = w.toNat / 4096 := by
  have := w.isLt; simp [opId, Nat.shiftRight_eq_div_pow]; omega

theorem opX_val (w : Word) : (opX w).val = w.toNat / 256 % 16 := by
  simp [opX, Nat.shiftRight_eq_div_pow]

theorem opY_val (w : Word) : (opY w).val = w.toNat / 16 % 16 := by
  simp [opY, Nat.shiftRight_eq_div_pow]

theorem opN_toNat (w : Word) : (opN w).toNat = w.toNat % 16 := by simp [opN]

theorem opKK_toNat (w : Word) : (opKK w).toNat = w.toNat % 256 := by simp [opKK]

theorem opNNN_toNat (w : Word) : (opNNN w).toNat = w.toNat % 4096 := by simp [opNNN]

theorem formatNNN_toNat (i : BitVec 4) (nnn : Addr) : (formatNNN i nnn).toNat = i.toNat * 4096 + nnn.toNat :=
  append_toNat i nnn

theorem formatXKK_toNat (i : BitVec 4) (x : RegIdx) (kk : Byte) :
    (formatXKK i x kk).toNat = i.toNat * 4096 + x.val * 256 + kk.toNat := by
  have h : (formatXKK i x kk).toNat = i.toNat * 4096 + ((BitVec.ofFin x : BitVec 4) ++ kk).toNat :=
    append_toNat i ((BitVec.ofFin x : BitVec 4) ++ kk)
  rw [h, append_toNat]; simp; omega

theorem formatXYN_toNat (i : BitVec 4) (x y : RegIdx) (n : BitVec 4) :
    (formatXYN i x y n).toNat = i.toNat * 4096 + x.val * 256 + y.val * 16 + n.toNat := by
  have h : (formatXYN i x y n).toNat =
      i.toNat * 4096 + ((BitVec.ofFin x : BitVec 4) ++ ((BitVec.ofFin y : BitVec 4) ++ n)).toNat :=
    append_toNat i ((BitVec.ofFin x : BitVec 4) ++ ((BitVec.ofFin y : BitVec 4) ++ n))
  rw [h, append_toNat, append_toNat]; simp; omega

theorem wordOfBytes_toNat (hi lo : Byte) : (wordOfBytes hi lo).toNat = hi.toNat * 256 + lo.toNat :=
  append_toNat hi lo

/-! ### The fields of an encoded word -/

@[simp] theorem opId_formatNNN (i : BitVec 4) (nnn : Addr) : opId (formatNNN i nnn) = i := by
  apply BitVec.eq_of_toNat_eq; have := nnn.isLt; rw [opId_toNat, formatNNN_toNat]; omega

@[simp] theorem opNNN_formatNNN (i : BitVec 4) (nnn : Addr) : opNNN (formatNNN i nnn) = nnn := by
  apply BitVec.eq_of_toNat_eq; have := nnn.isLt; rw [opNNN_toNat, formatNNN_toNat]; omega

@[simp] theorem opId_formatXKK (i : BitVec 4) (x : RegIdx) (kk : Byte) : opId (formatXKK i x kk) = i := by
  apply BitVec.eq_of_toNat_eq; have := kk.isLt; rw [opId_toNat, formatXKK_toNat]; omega

@[simp] theorem opX_formatXKK (i : BitVec 4) (x : RegIdx) (kk : Byte) : opX (formatXKK i x kk) = x := by
  apply Fin.ext; have := kk.isLt; rw [opX_val, formatXKK_toNat]; omega

@[simp] theorem opKK_formatXKK (i : BitVec 4) (x : RegIdx) (kk : Byte) : opKK (formatXKK i x kk) = kk := by
  apply BitVec.eq_of_toNat_eq; have := kk.isLt; rw [opKK_toNat, formatXKK_toNat]; omega

@[simp] theorem opId_formatXYN (i : BitVec 4) (x y : RegIdx) (n : BitVec 4) : opId (formatXYN i x y n) = i := by
  apply BitVec.eq_of_toNat_eq; have := n.isLt; rw [opId_toNat, formatXYN_toNat]; omega

@[simp] theorem opX_formatXYN (i : BitVec 4) (x y : RegIdx) (n : BitVec 4) : opX (formatXYN i x y n) = x := by
  apply Fin.ext; have := n.isLt; rw [opX_val, formatXYN_toNat]; omega

@[simp] theorem opY_formatXYN (i : BitVec 4) (x y : RegIdx) (n : BitVec 4) : opY (formatXYN i x y n) = y := by
  apply Fin.ext; have := n.isLt; rw [opY_val, formatXYN_toNat]; omega

@[simp] theorem opN_formatXYN (i : BitVec 4) (x y : RegIdx) (n : BitVec 4) : opN (formatXYN i x y n) = n := by
  apply BitVec.eq_of_toNat_eq; have := n.isLt; rw [opN_toNat, formatXYN_toNat]; omega

/-! ### A word is its fields -/

theorem formatNNN_of_fields (w : Word) : formatNNN (opId w) (opNNN w) = w := by
  apply BitVec.eq_of_toNat_eq; rw [formatNNN_toNat, opId_toNat, opNNN_toNat]; omega

theorem formatXKK_of_fields (w : Word) : formatXKK (opId w) (opX w) (opKK w) = w := by
  apply BitVec.eq_of_toNat_eq; rw [formatXKK_toNat, opId_toNat, opX_val, opKK_toNat]; omega

theorem formatXYN_of_fields (w : Word) : formatXYN (opId w) (opX w) (opY w) (opN w) = w := by
  apply BitVec.eq_of_toNat_eq; rw [formatXYN_toNat, opId_toNat, opX_val, opY_val, opN_toNat]; omega

/-! ### Bytes -/

/-- The two bytes of a word, put together in their order, are the word (R53). -/
theorem wordOfBytes_bytesOfWord (w : Word) : wordOfBytes (w.extractLsb' 8 8) (w.extractLsb' 0 8) = w := by
  apply BitVec.eq_of_toNat_eq
  have := w.isLt
  rw [wordOfBytes_toNat]; simp [Nat.shiftRight_eq_div_pow]; omega

/-- Decoding the bytes of a word decodes the word, whatever follows. -/
theorem decode_bytesOfWord (w : Word) (rest : List Byte) (i : Instr) (h : decodeWord w = .ok i) :
    decode (bytesOfWord w ++ rest) = .ok (i, rest) := by
  simp [decode, bytesOfWord, wordOfBytes_bytesOfWord, h]

/-- Decoding two bytes is decoding the word they make. -/
theorem decode_pair (hi lo : Byte) (i : Instr) :
    decode [hi, lo] = .ok (i, []) ↔ decodeWord (wordOfBytes hi lo) = .ok i := by
  cases h : decodeWord (wordOfBytes hi lo) <;> simp [decode, h]

/-! ### Masking: what is left of a word under the three masks of the opcode map (R75) -/

theorem opId_and (w m : Word) : opId (w &&& m) = opId w &&& opId m := BitVec.extractLsb'_and

theorem opN_and (w m : Word) : opN (w &&& m) = opN w &&& opN m := BitVec.extractLsb'_and

theorem opKK_and (w m : Word) : opKK (w &&& m) = opKK w &&& opKK m := BitVec.extractLsb'_and

theorem opNNN_and (w m : Word) : opNNN (w &&& m) = opNNN w &&& opNNN m := BitVec.extractLsb'_and

theorem opX_and_zero (w m : Word) (h : m.extractLsb' 8 4 = 0) : opX (w &&& m) = 0 := by
  rw [opX, BitVec.extractLsb'_and, h]; simp

theorem opY_and_zero (w m : Word) (h : m.extractLsb' 4 4 = 0) : opY (w &&& m) = 0 := by
  rw [opY, BitVec.extractLsb'_and, h]; simp

theorem masked_F000 (w : Word) : w &&& 0xF000#16 = formatNNN (opId w) 0 := by
  rw [← formatNNN_of_fields (w &&& 0xF000#16), opId_and, opNNN_and, show opId 0xF000#16 = BitVec.allOnes 4 from by decide,
    show opNNN 0xF000#16 = 0#12 from by decide, BitVec.and_allOnes, BitVec.and_zero]; rfl

theorem masked_F00F (w : Word) : w &&& 0xF00F#16 = formatXYN (opId w) 0 0 (opN w) := by
  rw [← formatXYN_of_fields (w &&& 0xF00F#16), opId_and, opN_and, opX_and_zero _ _ (by decide), opY_and_zero _ _ (by decide),
    show opId 0xF00F#16 = BitVec.allOnes 4 from by decide, show opN 0xF00F#16 = BitVec.allOnes 4 from by decide,
    BitVec.and_allOnes, BitVec.and_allOnes]

theorem masked_F0FF (w : Word) : w &&& 0xF0FF#16 = formatXKK (opId w) 0 (opKK w) := by
  rw [← formatXKK_of_fields (w &&& 0xF0FF#16), opId_and, opKK_and, opX_and_zero _ _ (by decide),
    show opId 0xF0FF#16 = BitVec.allOnes 4 from by decide, show opKK 0xF0FF#16 = BitVec.allOnes 8 from by decide,
    BitVec.and_allOnes, BitVec.and_allOnes]

theorem masked_FFFF (w : Word) : w &&& 0xFFFF#16 = w := by
  rw [show (0xFFFF#16 : Word) = BitVec.allOnes 16 from by decide, BitVec.and_allOnes]

end Sys2Proof
end

