-- ==== Sys2Proof/Laws/State.lean ====
section
/-!
SUPPORT. One lemma per field per update of the state, and per accessor per update that leaves what it reads alone, so that no
proof unfolds a record update.
-/
namespace Sys2Proof.Machine

variable (s : State)

/-! ### setV -/

@[simp] theorem State.setV_v (x : RegIdx) (b : Byte) : (s.setV x b).v = s.v.set x.val b x.isLt := rfl
@[simp] theorem State.setV_i (x : RegIdx) (b : Byte) : (s.setV x b).i = s.i := rfl
@[simp] theorem State.setV_pc (x : RegIdx) (b : Byte) : (s.setV x b).pc = s.pc := rfl
@[simp] theorem State.setV_stack (x : RegIdx) (b : Byte) : (s.setV x b).stack = s.stack := rfl
@[simp] theorem State.setV_sp (x : RegIdx) (b : Byte) : (s.setV x b).sp = s.sp := rfl
@[simp] theorem State.setV_dt (x : RegIdx) (b : Byte) : (s.setV x b).dt = s.dt := rfl
@[simp] theorem State.setV_st (x : RegIdx) (b : Byte) : (s.setV x b).st = s.st := rfl
@[simp] theorem State.setV_fb (x : RegIdx) (b : Byte) : (s.setV x b).fb = s.fb := rfl
@[simp] theorem State.setV_keys (x : RegIdx) (b : Byte) : (s.setV x b).keys = s.keys := rfl
@[simp] theorem State.setV_mem (x : RegIdx) (b : Byte) : (s.setV x b).mem = s.mem := rfl
@[simp] theorem State.setV_fsr (x : RegIdx) (b : Byte) : (s.setV x b).fsr = s.fsr := rfl
@[simp] theorem State.setV_schedule (x : RegIdx) (b : Byte) : (s.setV x b).schedule = s.schedule := rfl
@[simp] theorem State.setV_cycles (x : RegIdx) (b : Byte) : (s.setV x b).cycles = s.cycles := rfl
@[simp] theorem State.setV_rnd (x : RegIdx) (b : Byte) : (s.setV x b).rnd = s.rnd := rfl
@[simp] theorem State.setV_read (x : RegIdx) (b : Byte) (a : Word) : (s.setV x b).read a = s.read a := rfl
@[simp] theorem State.setV_pixel (x : RegIdx) (b : Byte) (px py : Nat) : (s.setV x b).pixel px py = s.pixel px py := rfl
@[simp] theorem State.setV_key (x : RegIdx) (b : Byte) (k : RegIdx) : (s.setV x b).key k = s.key k := rfl
@[simp] theorem State.setV_addrAt (x : RegIdx) (b : Byte) (n : Nat) : (s.setV x b).addrAt n = s.addrAt n := rfl

/-! ### setAllV -/

@[simp] theorem State.setAllV_v (w : Vector Byte 16) : (s.setAllV w).v = w := rfl
@[simp] theorem State.setAllV_i (w : Vector Byte 16) : (s.setAllV w).i = s.i := rfl
@[simp] theorem State.setAllV_pc (w : Vector Byte 16) : (s.setAllV w).pc = s.pc := rfl
@[simp] theorem State.setAllV_stack (w : Vector Byte 16) : (s.setAllV w).stack = s.stack := rfl
@[simp] theorem State.setAllV_sp (w : Vector Byte 16) : (s.setAllV w).sp = s.sp := rfl
@[simp] theorem State.setAllV_dt (w : Vector Byte 16) : (s.setAllV w).dt = s.dt := rfl
@[simp] theorem State.setAllV_st (w : Vector Byte 16) : (s.setAllV w).st = s.st := rfl
@[simp] theorem State.setAllV_fb (w : Vector Byte 16) : (s.setAllV w).fb = s.fb := rfl
@[simp] theorem State.setAllV_keys (w : Vector Byte 16) : (s.setAllV w).keys = s.keys := rfl
@[simp] theorem State.setAllV_mem (w : Vector Byte 16) : (s.setAllV w).mem = s.mem := rfl
@[simp] theorem State.setAllV_fsr (w : Vector Byte 16) : (s.setAllV w).fsr = s.fsr := rfl
@[simp] theorem State.setAllV_schedule (w : Vector Byte 16) : (s.setAllV w).schedule = s.schedule := rfl
@[simp] theorem State.setAllV_cycles (w : Vector Byte 16) : (s.setAllV w).cycles = s.cycles := rfl
@[simp] theorem State.setAllV_rnd (w : Vector Byte 16) : (s.setAllV w).rnd = s.rnd := rfl
@[simp] theorem State.setAllV_read (w : Vector Byte 16) (a : Word) : (s.setAllV w).read a = s.read a := rfl
@[simp] theorem State.setAllV_pixel (w : Vector Byte 16) (px py : Nat) : (s.setAllV w).pixel px py = s.pixel px py := rfl
@[simp] theorem State.setAllV_key (w : Vector Byte 16) (k : RegIdx) : (s.setAllV w).key k = s.key k := rfl
@[simp] theorem State.setAllV_addrAt (w : Vector Byte 16) (n : Nat) : (s.setAllV w).addrAt n = s.addrAt n := rfl

/-! ### setI -/

@[simp] theorem State.setI_v (w : Word) : (s.setI w).v = s.v := rfl
@[simp] theorem State.setI_i (w : Word) : (s.setI w).i = w := rfl
@[simp] theorem State.setI_pc (w : Word) : (s.setI w).pc = s.pc := rfl
@[simp] theorem State.setI_stack (w : Word) : (s.setI w).stack = s.stack := rfl
@[simp] theorem State.setI_sp (w : Word) : (s.setI w).sp = s.sp := rfl
@[simp] theorem State.setI_dt (w : Word) : (s.setI w).dt = s.dt := rfl
@[simp] theorem State.setI_st (w : Word) : (s.setI w).st = s.st := rfl
@[simp] theorem State.setI_fb (w : Word) : (s.setI w).fb = s.fb := rfl
@[simp] theorem State.setI_keys (w : Word) : (s.setI w).keys = s.keys := rfl
@[simp] theorem State.setI_mem (w : Word) : (s.setI w).mem = s.mem := rfl
@[simp] theorem State.setI_fsr (w : Word) : (s.setI w).fsr = s.fsr := rfl
@[simp] theorem State.setI_schedule (w : Word) : (s.setI w).schedule = s.schedule := rfl
@[simp] theorem State.setI_cycles (w : Word) : (s.setI w).cycles = s.cycles := rfl
@[simp] theorem State.setI_rnd (w : Word) : (s.setI w).rnd = s.rnd := rfl
@[simp] theorem State.setI_getV (w : Word) (r : RegIdx) : (s.setI w).getV r = s.getV r := rfl
@[simp] theorem State.setI_read (w : Word) (a : Word) : (s.setI w).read a = s.read a := rfl
@[simp] theorem State.setI_pixel (w : Word) (px py : Nat) : (s.setI w).pixel px py = s.pixel px py := rfl
@[simp] theorem State.setI_key (w : Word) (k : RegIdx) : (s.setI w).key k = s.key k := rfl

/-! ### setPc -/

@[simp] theorem State.setPc_v (w : Word) : (s.setPc w).v = s.v := rfl
@[simp] theorem State.setPc_i (w : Word) : (s.setPc w).i = s.i := rfl
@[simp] theorem State.setPc_pc (w : Word) : (s.setPc w).pc = w := rfl
@[simp] theorem State.setPc_stack (w : Word) : (s.setPc w).stack = s.stack := rfl
@[simp] theorem State.setPc_sp (w : Word) : (s.setPc w).sp = s.sp := rfl
@[simp] theorem State.setPc_dt (w : Word) : (s.setPc w).dt = s.dt := rfl
@[simp] theorem State.setPc_st (w : Word) : (s.setPc w).st = s.st := rfl
@[simp] theorem State.setPc_fb (w : Word) : (s.setPc w).fb = s.fb := rfl
@[simp] theorem State.setPc_keys (w : Word) : (s.setPc w).keys = s.keys := rfl
@[simp] theorem State.setPc_mem (w : Word) : (s.setPc w).mem = s.mem := rfl
@[simp] theorem State.setPc_fsr (w : Word) : (s.setPc w).fsr = s.fsr := rfl
@[simp] theorem State.setPc_schedule (w : Word) : (s.setPc w).schedule = s.schedule := rfl
@[simp] theorem State.setPc_cycles (w : Word) : (s.setPc w).cycles = s.cycles := rfl
@[simp] theorem State.setPc_rnd (w : Word) : (s.setPc w).rnd = s.rnd := rfl
@[simp] theorem State.setPc_getV (w : Word) (r : RegIdx) : (s.setPc w).getV r = s.getV r := rfl
@[simp] theorem State.setPc_read (w : Word) (a : Word) : (s.setPc w).read a = s.read a := rfl
@[simp] theorem State.setPc_pixel (w : Word) (px py : Nat) : (s.setPc w).pixel px py = s.pixel px py := rfl
@[simp] theorem State.setPc_key (w : Word) (k : RegIdx) : (s.setPc w).key k = s.key k := rfl
@[simp] theorem State.setPc_addrAt (w : Word) (n : Nat) : (s.setPc w).addrAt n = s.addrAt n := rfl

/-! ### advance -/

@[simp] theorem State.advance_v : s.advance.v = s.v := rfl
@[simp] theorem State.advance_i : s.advance.i = s.i := rfl
@[simp] theorem State.advance_pc : s.advance.pc = s.pc + 2 := rfl
@[simp] theorem State.advance_stack : s.advance.stack = s.stack := rfl
@[simp] theorem State.advance_sp : s.advance.sp = s.sp := rfl
@[simp] theorem State.advance_dt : s.advance.dt = s.dt := rfl
@[simp] theorem State.advance_st : s.advance.st = s.st := rfl
@[simp] theorem State.advance_fb : s.advance.fb = s.fb := rfl
@[simp] theorem State.advance_keys : s.advance.keys = s.keys := rfl
@[simp] theorem State.advance_mem : s.advance.mem = s.mem := rfl
@[simp] theorem State.advance_fsr : s.advance.fsr = s.fsr := rfl
@[simp] theorem State.advance_schedule : s.advance.schedule = s.schedule := rfl
@[simp] theorem State.advance_cycles : s.advance.cycles = s.cycles := rfl
@[simp] theorem State.advance_rnd : s.advance.rnd = s.rnd := rfl
@[simp] theorem State.advance_getV (r : RegIdx) : s.advance.getV r = s.getV r := rfl
@[simp] theorem State.advance_read (a : Word) : s.advance.read a = s.read a := rfl
@[simp] theorem State.advance_pixel (px py : Nat) : s.advance.pixel px py = s.pixel px py := rfl
@[simp] theorem State.advance_key (k : RegIdx) : s.advance.key k = s.key k := rfl
@[simp] theorem State.advance_addrAt (n : Nat) : s.advance.addrAt n = s.addrAt n := rfl

/-! ### setDt -/

@[simp] theorem State.setDt_v (b : Byte) : (s.setDt b).v = s.v := rfl
@[simp] theorem State.setDt_i (b : Byte) : (s.setDt b).i = s.i := rfl
@[simp] theorem State.setDt_pc (b : Byte) : (s.setDt b).pc = s.pc := rfl
@[simp] theorem State.setDt_stack (b : Byte) : (s.setDt b).stack = s.stack := rfl
@[simp] theorem State.setDt_sp (b : Byte) : (s.setDt b).sp = s.sp := rfl
@[simp] theorem State.setDt_dt (b : Byte) : (s.setDt b).dt = b := rfl
@[simp] theorem State.setDt_st (b : Byte) : (s.setDt b).st = s.st := rfl
@[simp] theorem State.setDt_fb (b : Byte) : (s.setDt b).fb = s.fb := rfl
@[simp] theorem State.setDt_keys (b : Byte) : (s.setDt b).keys = s.keys := rfl
@[simp] theorem State.setDt_mem (b : Byte) : (s.setDt b).mem = s.mem := rfl
@[simp] theorem State.setDt_fsr (b : Byte) : (s.setDt b).fsr = s.fsr := rfl
@[simp] theorem State.setDt_schedule (b : Byte) : (s.setDt b).schedule = s.schedule := rfl
@[simp] theorem State.setDt_cycles (b : Byte) : (s.setDt b).cycles = s.cycles := rfl
@[simp] theorem State.setDt_rnd (b : Byte) : (s.setDt b).rnd = s.rnd := rfl
@[simp] theorem State.setDt_getV (b : Byte) (r : RegIdx) : (s.setDt b).getV r = s.getV r := rfl
@[simp] theorem State.setDt_read (b : Byte) (a : Word) : (s.setDt b).read a = s.read a := rfl
@[simp] theorem State.setDt_pixel (b : Byte) (px py : Nat) : (s.setDt b).pixel px py = s.pixel px py := rfl
@[simp] theorem State.setDt_key (b : Byte) (k : RegIdx) : (s.setDt b).key k = s.key k := rfl
@[simp] theorem State.setDt_addrAt (b : Byte) (n : Nat) : (s.setDt b).addrAt n = s.addrAt n := rfl

/-! ### setSt -/

@[simp] theorem State.setSt_v (b : Byte) : (s.setSt b).v = s.v := rfl
@[simp] theorem State.setSt_i (b : Byte) : (s.setSt b).i = s.i := rfl
@[simp] theorem State.setSt_pc (b : Byte) : (s.setSt b).pc = s.pc := rfl
@[simp] theorem State.setSt_stack (b : Byte) : (s.setSt b).stack = s.stack := rfl
@[simp] theorem State.setSt_sp (b : Byte) : (s.setSt b).sp = s.sp := rfl
@[simp] theorem State.setSt_dt (b : Byte) : (s.setSt b).dt = s.dt := rfl
@[simp] theorem State.setSt_st (b : Byte) : (s.setSt b).st = b := rfl
@[simp] theorem State.setSt_fb (b : Byte) : (s.setSt b).fb = s.fb := rfl
@[simp] theorem State.setSt_keys (b : Byte) : (s.setSt b).keys = s.keys := rfl
@[simp] theorem State.setSt_mem (b : Byte) : (s.setSt b).mem = s.mem := rfl
@[simp] theorem State.setSt_fsr (b : Byte) : (s.setSt b).fsr = s.fsr := rfl
@[simp] theorem State.setSt_schedule (b : Byte) : (s.setSt b).schedule = s.schedule := rfl
@[simp] theorem State.setSt_cycles (b : Byte) : (s.setSt b).cycles = s.cycles := rfl
@[simp] theorem State.setSt_rnd (b : Byte) : (s.setSt b).rnd = s.rnd := rfl
@[simp] theorem State.setSt_getV (b : Byte) (r : RegIdx) : (s.setSt b).getV r = s.getV r := rfl
@[simp] theorem State.setSt_read (b : Byte) (a : Word) : (s.setSt b).read a = s.read a := rfl
@[simp] theorem State.setSt_pixel (b : Byte) (px py : Nat) : (s.setSt b).pixel px py = s.pixel px py := rfl
@[simp] theorem State.setSt_key (b : Byte) (k : RegIdx) : (s.setSt b).key k = s.key k := rfl
@[simp] theorem State.setSt_addrAt (b : Byte) (n : Nat) : (s.setSt b).addrAt n = s.addrAt n := rfl

/-! ### setFb -/

@[simp] theorem State.setFb_v (g : FrameBuffer) : (s.setFb g).v = s.v := rfl
@[simp] theorem State.setFb_i (g : FrameBuffer) : (s.setFb g).i = s.i := rfl
@[simp] theorem State.setFb_pc (g : FrameBuffer) : (s.setFb g).pc = s.pc := rfl
@[simp] theorem State.setFb_stack (g : FrameBuffer) : (s.setFb g).stack = s.stack := rfl
@[simp] theorem State.setFb_sp (g : FrameBuffer) : (s.setFb g).sp = s.sp := rfl
@[simp] theorem State.setFb_dt (g : FrameBuffer) : (s.setFb g).dt = s.dt := rfl
@[simp] theorem State.setFb_st (g : FrameBuffer) : (s.setFb g).st = s.st := rfl
@[simp] theorem State.setFb_fb (g : FrameBuffer) : (s.setFb g).fb = g := rfl
@[simp] theorem State.setFb_keys (g : FrameBuffer) : (s.setFb g).keys = s.keys := rfl
@[simp] theorem State.setFb_mem (g : FrameBuffer) : (s.setFb g).mem = s.mem := rfl
@[simp] theorem State.setFb_fsr (g : FrameBuffer) : (s.setFb g).fsr = s.fsr := rfl
@[simp] theorem State.setFb_schedule (g : FrameBuffer) : (s.setFb g).schedule = s.schedule := rfl
@[simp] theorem State.setFb_cycles (g : FrameBuffer) : (s.setFb g).cycles = s.cycles := rfl
@[simp] theorem State.setFb_rnd (g : FrameBuffer) : (s.setFb g).rnd = s.rnd := rfl
@[simp] theorem State.setFb_getV (g : FrameBuffer) (r : RegIdx) : (s.setFb g).getV r = s.getV r := rfl
@[simp] theorem State.setFb_read (g : FrameBuffer) (a : Word) : (s.setFb g).read a = s.read a := rfl
@[simp] theorem State.setFb_key (g : FrameBuffer) (k : RegIdx) : (s.setFb g).key k = s.key k := rfl
@[simp] theorem State.setFb_addrAt (g : FrameBuffer) (n : Nat) : (s.setFb g).addrAt n = s.addrAt n := rfl

/-! ### setKeys -/

@[simp] theorem State.setKeys_v (g : Keypad) : (s.setKeys g).v = s.v := rfl
@[simp] theorem State.setKeys_i (g : Keypad) : (s.setKeys g).i = s.i := rfl
@[simp] theorem State.setKeys_pc (g : Keypad) : (s.setKeys g).pc = s.pc := rfl
@[simp] theorem State.setKeys_stack (g : Keypad) : (s.setKeys g).stack = s.stack := rfl
@[simp] theorem State.setKeys_sp (g : Keypad) : (s.setKeys g).sp = s.sp := rfl
@[simp] theorem State.setKeys_dt (g : Keypad) : (s.setKeys g).dt = s.dt := rfl
@[simp] theorem State.setKeys_st (g : Keypad) : (s.setKeys g).st = s.st := rfl
@[simp] theorem State.setKeys_fb (g : Keypad) : (s.setKeys g).fb = s.fb := rfl
@[simp] theorem State.setKeys_keys (g : Keypad) : (s.setKeys g).keys = g := rfl
@[simp] theorem State.setKeys_mem (g : Keypad) : (s.setKeys g).mem = s.mem := rfl
@[simp] theorem State.setKeys_fsr (g : Keypad) : (s.setKeys g).fsr = s.fsr := rfl
@[simp] theorem State.setKeys_schedule (g : Keypad) : (s.setKeys g).schedule = s.schedule := rfl
@[simp] theorem State.setKeys_cycles (g : Keypad) : (s.setKeys g).cycles = s.cycles := rfl
@[simp] theorem State.setKeys_rnd (g : Keypad) : (s.setKeys g).rnd = s.rnd := rfl
@[simp] theorem State.setKeys_getV (g : Keypad) (r : RegIdx) : (s.setKeys g).getV r = s.getV r := rfl
@[simp] theorem State.setKeys_read (g : Keypad) (a : Word) : (s.setKeys g).read a = s.read a := rfl
@[simp] theorem State.setKeys_pixel (g : Keypad) (px py : Nat) : (s.setKeys g).pixel px py = s.pixel px py := rfl
@[simp] theorem State.setKeys_addrAt (g : Keypad) (n : Nat) : (s.setKeys g).addrAt n = s.addrAt n := rfl

/-! ### setMem -/

@[simp] theorem State.setMem_v (m : Memory) : (s.setMem m).v = s.v := rfl
@[simp] theorem State.setMem_i (m : Memory) : (s.setMem m).i = s.i := rfl
@[simp] theorem State.setMem_pc (m : Memory) : (s.setMem m).pc = s.pc := rfl
@[simp] theorem State.setMem_stack (m : Memory) : (s.setMem m).stack = s.stack := rfl
@[simp] theorem State.setMem_sp (m : Memory) : (s.setMem m).sp = s.sp := rfl
@[simp] theorem State.setMem_dt (m : Memory) : (s.setMem m).dt = s.dt := rfl
@[simp] theorem State.setMem_st (m : Memory) : (s.setMem m).st = s.st := rfl
@[simp] theorem State.setMem_fb (m : Memory) : (s.setMem m).fb = s.fb := rfl
@[simp] theorem State.setMem_keys (m : Memory) : (s.setMem m).keys = s.keys := rfl
@[simp] theorem State.setMem_mem (m : Memory) : (s.setMem m).mem = m := rfl
@[simp] theorem State.setMem_fsr (m : Memory) : (s.setMem m).fsr = s.fsr := rfl
@[simp] theorem State.setMem_schedule (m : Memory) : (s.setMem m).schedule = s.schedule := rfl
@[simp] theorem State.setMem_cycles (m : Memory) : (s.setMem m).cycles = s.cycles := rfl
@[simp] theorem State.setMem_rnd (m : Memory) : (s.setMem m).rnd = s.rnd := rfl
@[simp] theorem State.setMem_getV (m : Memory) (r : RegIdx) : (s.setMem m).getV r = s.getV r := rfl
@[simp] theorem State.setMem_pixel (m : Memory) (px py : Nat) : (s.setMem m).pixel px py = s.pixel px py := rfl
@[simp] theorem State.setMem_key (m : Memory) (k : RegIdx) : (s.setMem m).key k = s.key k := rfl
@[simp] theorem State.setMem_addrAt (m : Memory) (n : Nat) : (s.setMem m).addrAt n = s.addrAt n := rfl

/-! ### raise -/

@[simp] theorem State.raise_v (f : Fatal) (o p : Word) : (s.raise f o p).v = s.v := rfl
@[simp] theorem State.raise_i (f : Fatal) (o p : Word) : (s.raise f o p).i = s.i := rfl
@[simp] theorem State.raise_pc (f : Fatal) (o p : Word) : (s.raise f o p).pc = s.pc := rfl
@[simp] theorem State.raise_stack (f : Fatal) (o p : Word) : (s.raise f o p).stack = s.stack := rfl
@[simp] theorem State.raise_sp (f : Fatal) (o p : Word) : (s.raise f o p).sp = s.sp := rfl
@[simp] theorem State.raise_dt (f : Fatal) (o p : Word) : (s.raise f o p).dt = s.dt := rfl
@[simp] theorem State.raise_st (f : Fatal) (o p : Word) : (s.raise f o p).st = s.st := rfl
@[simp] theorem State.raise_fb (f : Fatal) (o p : Word) : (s.raise f o p).fb = s.fb := rfl
@[simp] theorem State.raise_keys (f : Fatal) (o p : Word) : (s.raise f o p).keys = s.keys := rfl
@[simp] theorem State.raise_mem (f : Fatal) (o p : Word) : (s.raise f o p).mem = s.mem := rfl
@[simp] theorem State.raise_fsr (f : Fatal) (o p : Word) : (s.raise f o p).fsr = { halted := true, kind := f.code, opcode := o, fpc := p } := rfl
@[simp] theorem State.raise_schedule (f : Fatal) (o p : Word) : (s.raise f o p).schedule = s.schedule := rfl
@[simp] theorem State.raise_cycles (f : Fatal) (o p : Word) : (s.raise f o p).cycles = s.cycles := rfl
@[simp] theorem State.raise_rnd (f : Fatal) (o p : Word) : (s.raise f o p).rnd = s.rnd := rfl
@[simp] theorem State.raise_getV (f : Fatal) (o p : Word) (r : RegIdx) : (s.raise f o p).getV r = s.getV r := rfl
@[simp] theorem State.raise_read (f : Fatal) (o p : Word) (a : Word) : (s.raise f o p).read a = s.read a := rfl
@[simp] theorem State.raise_pixel (f : Fatal) (o p : Word) (px py : Nat) : (s.raise f o p).pixel px py = s.pixel px py := rfl
@[simp] theorem State.raise_key (f : Fatal) (o p : Word) (k : RegIdx) : (s.raise f o p).key k = s.key k := rfl
@[simp] theorem State.raise_addrAt (f : Fatal) (o p : Word) (n : Nat) : (s.raise f o p).addrAt n = s.addrAt n := rfl

/-! ### withSchedule -/

@[simp] theorem State.withSchedule_v (l : List Event) : (s.withSchedule l).v = s.v := rfl
@[simp] theorem State.withSchedule_i (l : List Event) : (s.withSchedule l).i = s.i := rfl
@[simp] theorem State.withSchedule_pc (l : List Event) : (s.withSchedule l).pc = s.pc := rfl
@[simp] theorem State.withSchedule_stack (l : List Event) : (s.withSchedule l).stack = s.stack := rfl
@[simp] theorem State.withSchedule_sp (l : List Event) : (s.withSchedule l).sp = s.sp := rfl
@[simp] theorem State.withSchedule_dt (l : List Event) : (s.withSchedule l).dt = s.dt := rfl
@[simp] theorem State.withSchedule_st (l : List Event) : (s.withSchedule l).st = s.st := rfl
@[simp] theorem State.withSchedule_fb (l : List Event) : (s.withSchedule l).fb = s.fb := rfl
@[simp] theorem State.withSchedule_keys (l : List Event) : (s.withSchedule l).keys = s.keys := rfl
@[simp] theorem State.withSchedule_mem (l : List Event) : (s.withSchedule l).mem = s.mem := rfl
@[simp] theorem State.withSchedule_fsr (l : List Event) : (s.withSchedule l).fsr = s.fsr := rfl
@[simp] theorem State.withSchedule_schedule (l : List Event) : (s.withSchedule l).schedule = l := rfl
@[simp] theorem State.withSchedule_cycles (l : List Event) : (s.withSchedule l).cycles = s.cycles := rfl
@[simp] theorem State.withSchedule_rnd (l : List Event) : (s.withSchedule l).rnd = s.rnd := rfl
@[simp] theorem State.withSchedule_getV (l : List Event) (r : RegIdx) : (s.withSchedule l).getV r = s.getV r := rfl
@[simp] theorem State.withSchedule_read (l : List Event) (a : Word) : (s.withSchedule l).read a = s.read a := rfl
@[simp] theorem State.withSchedule_pixel (l : List Event) (px py : Nat) : (s.withSchedule l).pixel px py = s.pixel px py := rfl
@[simp] theorem State.withSchedule_key (l : List Event) (k : RegIdx) : (s.withSchedule l).key k = s.key k := rfl
@[simp] theorem State.withSchedule_addrAt (l : List Event) (n : Nat) : (s.withSchedule l).addrAt n = s.addrAt n := rfl

/-! ### beginCycle -/

@[simp] theorem State.beginCycle_v (q : Option Byte) : (s.beginCycle q).v = s.v := rfl
@[simp] theorem State.beginCycle_i (q : Option Byte) : (s.beginCycle q).i = s.i := rfl
@[simp] theorem State.beginCycle_pc (q : Option Byte) : (s.beginCycle q).pc = s.pc := rfl
@[simp] theorem State.beginCycle_stack (q : Option Byte) : (s.beginCycle q).stack = s.stack := rfl
@[simp] theorem State.beginCycle_sp (q : Option Byte) : (s.beginCycle q).sp = s.sp := rfl
@[simp] theorem State.beginCycle_dt (q : Option Byte) : (s.beginCycle q).dt = s.dt := rfl
@[simp] theorem State.beginCycle_st (q : Option Byte) : (s.beginCycle q).st = s.st := rfl
@[simp] theorem State.beginCycle_fb (q : Option Byte) : (s.beginCycle q).fb = s.fb := rfl
@[simp] theorem State.beginCycle_keys (q : Option Byte) : (s.beginCycle q).keys = s.keys := rfl
@[simp] theorem State.beginCycle_mem (q : Option Byte) : (s.beginCycle q).mem = s.mem := rfl
@[simp] theorem State.beginCycle_fsr (q : Option Byte) : (s.beginCycle q).fsr = s.fsr := rfl
@[simp] theorem State.beginCycle_schedule (q : Option Byte) : (s.beginCycle q).schedule = s.schedule := rfl
@[simp] theorem State.beginCycle_cycles (q : Option Byte) : (s.beginCycle q).cycles = s.cycles + 1 := rfl
@[simp] theorem State.beginCycle_rnd (q : Option Byte) : (s.beginCycle q).rnd = q := rfl
@[simp] theorem State.beginCycle_getV (q : Option Byte) (r : RegIdx) : (s.beginCycle q).getV r = s.getV r := rfl
@[simp] theorem State.beginCycle_read (q : Option Byte) (a : Word) : (s.beginCycle q).read a = s.read a := rfl
@[simp] theorem State.beginCycle_pixel (q : Option Byte) (px py : Nat) : (s.beginCycle q).pixel px py = s.pixel px py := rfl
@[simp] theorem State.beginCycle_key (q : Option Byte) (k : RegIdx) : (s.beginCycle q).key k = s.key k := rfl
@[simp] theorem State.beginCycle_addrAt (q : Option Byte) (n : Nat) : (s.beginCycle q).addrAt n = s.addrAt n := rfl

end Sys2Proof.Machine
end

