-- ==== Sys2Proof/Laws/Registers.lean ====
section
/-!
SUPPORT. What reads of V after writes give (10_state.md R20), the flag order (43_alu.md R130), the skip and the stack.
-/
namespace Sys2Proof.Machine

variable (s : State)

/-- A register reads as what was last written to it, and no write reaches another register. -/
theorem State.setV_getV (x r : RegIdx) (b : Byte) : (s.setV x b).getV r = if r = x then b else s.getV r := by
  simp [State.getV, State.setV, Vector.getElem_set, Fin.ext_iff, eq_comm]

@[simp] theorem State.setV_getV_same (x : RegIdx) (b : Byte) : (s.setV x b).getV x = b := by
  simp [State.setV_getV]

theorem State.setV_getV_other {x r : RegIdx} (b : Byte) (h : r ≠ x) : (s.setV x b).getV r = s.getV r := by
  simp [State.setV_getV, h]

@[simp] theorem State.setAllV_getV (w : Vector Byte 16) (r : RegIdx) : (s.setAllV w).getV r = w[r] := rfl

/-- `setFlag` is a write of VF. -/
theorem State.setFlag_eq (f : Bool) : s.setFlag f = s.setV VF (flagByte f) := rfl

/-- `setResultAndFlag` is two register writes, the flag's last. -/
theorem State.setResultAndFlag_eq (x : RegIdx) (b : Byte) (f : Bool) :
    s.setResultAndFlag x b f = (s.setV x b).setV VF (flagByte f) := rfl

@[simp] theorem State.setResultAndFlag_getV_flag (x : RegIdx) (b : Byte) (f : Bool) :
    (s.setResultAndFlag x b f).getV VF = flagByte f := by
  simp [State.setResultAndFlag_eq]

theorem State.setResultAndFlag_getV_result {x : RegIdx} (b : Byte) (f : Bool) (h : x ≠ VF) :
    (s.setResultAndFlag x b f).getV x = b := by
  rw [State.setResultAndFlag_eq, State.setV_getV_other _ _ h, State.setV_getV_same]

theorem State.setResultAndFlag_getV_other {x r : RegIdx} (b : Byte) (f : Bool) (hx : r ≠ x) (hF : r ≠ VF) :
    (s.setResultAndFlag x b f).getV r = s.getV r := by
  rw [State.setResultAndFlag_eq, State.setV_getV_other _ _ hF, State.setV_getV_other _ _ hx]

theorem flagByte_toNat (f : Bool) : (flagByte f).toNat = if f = true then 1 else 0 := by
  cases f <;> rfl

/-- A skip changes PC alone: by 4 where the condition holds, by 2 where it does not. -/
theorem State.skipIf_eq (c : Bool) : s.skipIf c = s.setPc (s.pc + if c = true then 4 else 2) := by
  cases c
  · rfl
  · simp [State.skipIf, State.setPc, State.advance, BitVec.add_assoc]

theorem word_add_toNat (w : Word) (n : Nat) (h : n < 65536) : (w + BitVec.ofNat 16 n).toNat = (w.toNat + n) % 65536 := by
  simp [BitVec.toNat_add, Nat.mod_eq_of_lt h]

/-! ### The stack (10_state.md R26) -/

/-- With an entry free, a push writes S[SP] and takes SP up by 1; with none free there is no push. -/
theorem State.push_eq_some (a : Word) (t : State) :
    s.push a = some t ↔ ∃ h : s.sp.val < 16,
      t = { s with stack := s.stack.set s.sp.val a h, sp := ⟨s.sp.val + 1, Nat.succ_lt_succ h⟩ } := by
  unfold State.push
  split
  · next h => exact ⟨fun e => ⟨h, (Option.some.inj e).symm⟩, fun ⟨_, e⟩ => e ▸ rfl⟩
  · next h => exact ⟨fun e => (nomatch e), fun ⟨h', _⟩ => absurd h' h⟩

theorem State.push_eq_none (a : Word) : s.push a = none ↔ s.sp.val = 16 := by
  unfold State.push
  have := s.sp.isLt
  split
  · next h => exact ⟨fun e => (nomatch e), fun e => absurd h (by simp [e])⟩
  · next h => exact ⟨fun _ => by simp only [Config.stackDepth] at h; omega, fun _ => rfl⟩

/-- With an entry in use, a pop answers S[SP - 1] and takes SP down by 1, the entries staying; with none there is no pop. -/
theorem State.pop_eq_some (a : Word) (t : State) :
    s.pop = some (a, t) ↔ s.sp.val ≠ 0 ∧ s.stack[s.sp.val - 1]? = some a ∧
      ∃ h : s.sp.val - 1 < 17, t = { s with sp := ⟨s.sp.val - 1, h⟩ } := by
  have hs := s.sp.isLt
  unfold State.pop
  split
  · next h =>
    have hlt : s.sp.val - 1 < 16 := by omega
    simp only [Option.some.injEq, Prod.mk.injEq, Vector.getElem?_eq_getElem hlt]
    exact ⟨fun ⟨e, f⟩ => ⟨h, e, by omega, f.symm⟩, fun ⟨_, e, _, f⟩ => ⟨e, f.symm⟩⟩
  · next h => simp_all

theorem State.pop_eq_none : s.pop = none ↔ s.sp.val = 0 := by
  unfold State.pop
  split
  · next h => exact ⟨fun e => (nomatch e), fun e => absurd e h⟩
  · next h => exact ⟨fun _ => by omega, fun _ => rfl⟩

end Sys2Proof.Machine
end

