-- ==== Sys2Proof/Laws/Draw.lean ====
section
/-!
SUPPORT. What drawing does to the framebuffer and the collision (46_display.md R171-R173): each part of a sprite toggles a set of
pixels, parts that touch different pixels compose, and a whole sprite of at most 32 rows touches no pixel twice.
-/
namespace Sys2Proof.Machine

@[simp] theorem FrameBuffer.blank_pixel (x y : Nat) : FrameBuffer.pixel FrameBuffer.blank x y = false := by
  simp [FrameBuffer.pixel, FrameBuffer.blank]

@[simp] theorem State.setFb_pixel (s : State) (g : FrameBuffer) (x y : Nat) :
    (s.setFb g).pixel x y = FrameBuffer.pixel g x y := rfl

/-- Coordinates are reduced modulo 64 and 32 (R173). -/
theorem FrameBuffer.pixel_mod (fb : FrameBuffer) (x y : Nat) :
    FrameBuffer.pixel fb (x % 64) (y % 32) = FrameBuffer.pixel fb x y := by
  simp [FrameBuffer.pixel]

/-- A flip changes the pixel its reduced coordinates name and no other. -/
theorem FrameBuffer.flip_pixel (fb : FrameBuffer) (x y px py : Nat) :
    FrameBuffer.pixel (FrameBuffer.flip fb x y) px py =
      if px % 64 = x % 64 ∧ py % 32 = y % 32 then !FrameBuffer.pixel fb px py else FrameBuffer.pixel fb px py := by
  have h64 : x % 64 < 64 := Nat.mod_lt _ (by decide)
  by_cases hy : py % 32 = y % 32
  · by_cases hx : px % 64 = x % 64
    · simp [FrameBuffer.pixel, FrameBuffer.flip, hx, hy, h64]
    · have hx' : ¬ x % 64 = px % 64 := fun e => hx e.symm
      simp [FrameBuffer.pixel, FrameBuffer.flip, hx, hy, BitVec.getLsbD_twoPow, h64, hx']
  · have hy' : ¬ y % 32 = py % 32 := fun e => hy e.symm
    simp [FrameBuffer.pixel, FrameBuffer.flip, hy, hy']

/-- From canvas `a` to canvas `b`, exactly the pixels of `P` have changed, and the collision has been set exactly if one of
them was on. -/
structure Toggles (P : Nat → Nat → Prop) (a b : Canvas) : Prop where
  inside : ∀ px py, P px py → FrameBuffer.pixel b.1 px py = !FrameBuffer.pixel a.1 px py
  outside : ∀ px py, ¬ P px py → FrameBuffer.pixel b.1 px py = FrameBuffer.pixel a.1 px py
  collision : b.2 = true ↔ a.2 = true ∨ ∃ px py, P px py ∧ FrameBuffer.pixel a.1 px py = true

theorem Toggles.none (a : Canvas) : Toggles (fun _ _ => False) a a :=
  ⟨fun _ _ h => h.elim, fun _ _ _ => rfl, by simp⟩

theorem Toggles.congr {P Q : Nat → Nat → Prop} {a b : Canvas} (h : Toggles P a b) (e : ∀ px py, P px py ↔ Q px py) :
    Toggles Q a b := by
  have : P = Q := funext fun px => funext fun py => propext (e px py)
  exact this ▸ h

/-- Two drawings that touch no common pixel. -/
theorem Toggles.trans {P Q : Nat → Nat → Prop} {a b c : Canvas} (h : Toggles P a b) (k : Toggles Q b c)
    (disjoint : ∀ px py, P px py → ¬ Q px py) : Toggles (fun px py => P px py ∨ Q px py) a c := by
  refine ⟨fun px py hpq => ?_, fun px py hn => ?_, ?_⟩
  · by_cases hp : P px py
    · rw [k.outside px py (disjoint px py hp), h.inside px py hp]
    · rw [k.inside px py (hpq.resolve_left hp), h.outside px py hp]
  · rw [k.outside px py (fun q => hn (.inr q)), h.outside px py (fun p => hn (.inl p))]
  · rw [k.collision, h.collision]
    have before : ∀ px py, Q px py → FrameBuffer.pixel b.1 px py = FrameBuffer.pixel a.1 px py :=
      fun px py q => h.outside px py (fun p => disjoint px py p q)
    constructor
    · rintro ((ha | ⟨px, py, hp, ho⟩) | ⟨px, py, hq, ho⟩)
      · exact .inl ha
      · exact .inr ⟨px, py, .inl hp, ho⟩
      · exact .inr ⟨px, py, .inr hq, before px py hq ▸ ho⟩
    · rintro (ha | ⟨px, py, hp | hq, ho⟩)
      · exact .inl (.inl ha)
      · exact .inl (.inr ⟨px, py, hp, ho⟩)
      · exact .inr ⟨px, py, hq, (before px py hq).trans ho⟩

/-- Column c of a sprite row. -/
theorem drawPixel_toggles (x0 y0 row : Byte) (r c : Nat) (a : Canvas) :
    Toggles (fun px py => row.getLsbD (7 - c) = true ∧ px % 64 = (x0.toNat + c) % 64 ∧ py % 32 = (y0.toNat + r) % 32)
      a (drawPixel x0 y0 row r c a) := by
  by_cases hb : row.getLsbD (7 - c) = true
  · simp only [drawPixel, hb, if_true]
    refine ⟨fun px py h => ?_, fun px py h => ?_, ?_⟩
    · rw [FrameBuffer.flip_pixel, if_pos h.2]
    · rw [FrameBuffer.flip_pixel, if_neg (by simpa using h)]
    · rw [Bool.or_eq_true]
      refine or_congr_right ⟨fun h => ⟨_, _, ⟨trivial, rfl, rfl⟩, h⟩, ?_⟩
      rintro ⟨px, py, ⟨-, hx, hy⟩, h⟩
      rwa [← FrameBuffer.pixel_mod, ← hx, ← hy, FrameBuffer.pixel_mod]
  · simpa [drawPixel, hb] using Toggles.none a

/-- The first k columns of a sprite row, k at most the display's width. -/
theorem drawColumns_toggles (x0 y0 row : Byte) (r k : Nat) (hk : k ≤ 64) (a : Canvas) :
    Toggles (fun px py => ∃ c, c < k ∧ row.getLsbD (7 - c) = true ∧ px % 64 = (x0.toNat + c) % 64 ∧
      py % 32 = (y0.toNat + r) % 32) a (drawColumns x0 y0 row r k a) := by
  induction k with
  | zero => exact (Toggles.none a).congr (by simp)
  | succ k ih =>
    refine ((ih (by omega)).trans (drawPixel_toggles x0 y0 row r k _) ?_).congr ?_
    · rintro px py ⟨c, hc, -, hx, -⟩ ⟨-, hx', -⟩
      omega
    · intro px py
      constructor
      · rintro (⟨c, hc, h⟩ | h)
        · exact ⟨c, by omega, h⟩
        · exact ⟨k, by omega, h⟩
      · rintro ⟨c, hc, h⟩
        by_cases he : c = k
        · exact .inr (he ▸ h)
        · exact .inl ⟨c, by omega, h⟩

/-- The first n rows of the sprite at I, n at most the display's height. -/
theorem State.drawRows_toggles (s : State) (x0 y0 : Byte) (n : Nat) (hn : n ≤ 32) (a : Canvas) :
    Toggles (fun px py => ∃ r c, r < n ∧ c < 8 ∧ (s.read (s.addrAt r)).getLsbD (7 - c) = true ∧
      px % 64 = (x0.toNat + c) % 64 ∧ py % 32 = (y0.toNat + r) % 32) a (s.drawRows x0 y0 n a) := by
  induction n with
  | zero => exact (Toggles.none a).congr (by simp)
  | succ n ih =>
    refine ((ih (by omega)).trans (drawColumns_toggles x0 y0 (s.read (s.addrAt n)) n 8 (by omega) _) ?_).congr ?_
    · rintro px py ⟨r, c, hr, -, -, -, hy⟩ ⟨c', -, -, -, hy'⟩
      omega
    · intro px py
      constructor
      · rintro (⟨r, c, hr, h⟩ | ⟨c, h⟩)
        · exact ⟨r, c, by omega, h⟩
        · exact ⟨n, c, by omega, h⟩
      · rintro ⟨r, c, hr, h⟩
        by_cases he : r = n
        · exact .inr ⟨c, he ▸ h⟩
        · exact .inl ⟨r, c, by omega, h⟩

end Sys2Proof.Machine
end

