-- ==== Sys2Proof/Laws/Memory.lean ====
section
/-!
SUPPORT. Memory: what an index reads as after an update (20_memory.md R51, R52), and that every memory operation keeps the
canonical form.
-/
namespace Sys2Proof.Machine

/-- Masking to 12 bits is reduction modulo 4096 (R51). -/
theorem maskAddr_eq (a : Word) : maskAddr a = a.toNat % 4096 := by
  simpa [maskAddr] using Nat.and_two_pow_sub_one_eq_mod a.toNat 12

theorem maskAddr_lt (a : Word) : maskAddr a < 4096 := by
  rw [maskAddr_eq]; exact Nat.mod_lt _ (by decide)

/-- The masked address I + k of a transfer (R55). -/
theorem maskAddr_addrAt (s : State) (k : Nat) : maskAddr (s.addrAt k) = (s.i.toNat + k) % 4096 := by
  simp [maskAddr_eq, State.addrAt, BitVec.toNat_add]

theorem Memory.lookup_erase (m : Memory) (k j : Nat) :
    (m.erase k).lookup j = if j = k then resetByte j else m.lookup j := by
  induction m with
  | nil => simp [Memory.erase, Memory.lookup]
  | cons c rest ih =>
    simp only [Memory.erase] at ih
    by_cases hc : c.1 = k <;> by_cases hj : j = k <;> by_cases hcj : c.1 = j <;>
      simp_all [Memory.erase, Memory.lookup]

theorem Memory.erase_no_key (m : Memory) (k : Nat) : ∀ c ∈ m.erase k, c.1 ≠ k := by
  intro c hc
  simpa using (List.mem_filter.mp hc).2

theorem Memory.lookup_insert (m : Memory) (k j : Nat) (b : Byte) (h : ∀ c ∈ m, c.1 ≠ k) :
    (m.insert k b).lookup j = if j = k then b else m.lookup j := by
  induction m with
  | nil => simp [Memory.insert, Memory.lookup, eq_comm]
  | cons c rest ih =>
    have hc : c.1 ≠ k := h c (by simp)
    have ih' := ih (fun d hd => h d (by simp [hd]))
    unfold Memory.insert
    split
    · simp [Memory.lookup, eq_comm]
    · by_cases hj : j = k <;> by_cases hcj : c.1 = j <;> simp_all [Memory.lookup]

/-- Updating M[k] changes what k reads as and nothing else. -/
theorem Memory.lookup_update (m : Memory) (k j : Nat) (b : Byte) :
    (m.update k b).lookup j = if j = k then b else m.lookup j := by
  unfold Memory.update
  split
  · next h => rw [Memory.lookup_erase]; split <;> simp_all
  · rw [Memory.lookup_insert _ _ _ _ (m.erase_no_key k), Memory.lookup_erase]; split <;> simp_all

/-- A write, read back at the same or another masked address. -/
theorem Memory.write_read (m : Memory) (a c : Word) (b : Byte) :
    (m.write a b).read c = if maskAddr c = maskAddr a then b else m.read c :=
  Memory.lookup_update m _ _ b

theorem Memory.write_read_same (m : Memory) {a c : Word} (b : Byte) (h : maskAddr c = maskAddr a) :
    (m.write a b).read c = b := by
  rw [Memory.write_read, if_pos h]

theorem Memory.write_read_other (m : Memory) {a c : Word} (b : Byte) (h : maskAddr c ≠ maskAddr a) :
    (m.write a b).read c = m.read c := by
  rw [Memory.write_read, if_neg h]

@[simp] theorem State.setMem_read (s : State) (m : Memory) (a : Word) : (s.setMem m).read a = m.read a := rfl

theorem State.read_def (s : State) (a : Word) : s.read a = s.mem.read a := rfl

/-! ### The canonical form -/

theorem Memory.nil_wf : Memory.wf [] := by simp [Memory.wf]

theorem Memory.erase_wf {m : Memory} (h : m.wf) (k : Nat) : (m.erase k).wf :=
  ⟨h.1.filter _, fun c hc => h.2 c (List.mem_filter.mp hc).1⟩

theorem Memory.mem_insert (m : Memory) (k : Nat) (b : Byte) (c : Host.Cell) :
    c ∈ m.insert k b ↔ c = (k, b) ∨ c ∈ m := by
  induction m with
  | nil => simp [Memory.insert]
  | cons d rest ih =>
    unfold Memory.insert
    split
    · simp
    · simp only [List.mem_cons, ih]; tauto

theorem Memory.insert_pairwise {m : Memory} (h : m.Pairwise (fun c d => c.1 < d.1)) (k : Nat) (b : Byte)
    (hk : ∀ c ∈ m, c.1 ≠ k) : (m.insert k b).Pairwise (fun c d => c.1 < d.1) := by
  induction m with
  | nil => simp [Memory.insert]
  | cons c rest ih =>
    have hc : c.1 ≠ k := hk c (by simp)
    obtain ⟨h1, h2⟩ := List.pairwise_cons.mp h
    unfold Memory.insert
    split
    · next hlt =>
      refine List.pairwise_cons.mpr ⟨?_, h⟩
      intro d hd
      rcases List.mem_cons.mp hd with rfl | hd
      · exact hlt
      · exact lt_trans hlt (h1 d hd)
    · next hge =>
      refine List.pairwise_cons.mpr ⟨?_, ih h2 (fun d hd => hk d (by simp [hd]))⟩
      intro d hd
      rcases (Memory.mem_insert rest k b d).mp hd with rfl | hd
      · simp at hge ⊢; omega
      · exact h1 d hd

/-- An update inside M keeps the canonical form. -/
theorem Memory.update_wf {m : Memory} (h : m.wf) {k : Nat} (hk : k < 4096) (b : Byte) : (m.update k b).wf := by
  have he := Memory.erase_wf h k
  unfold Memory.update
  split
  · exact he
  · next hb =>
    refine ⟨Memory.insert_pairwise he.1 k b (m.erase_no_key k), ?_⟩
    intro c hc
    rcases (Memory.mem_insert _ _ _ _).mp hc with rfl | hc
    · exact ⟨hk, hb⟩
    · exact he.2 c hc

/-- Every write keeps the canonical form. -/
theorem Memory.write_wf {m : Memory} (h : m.wf) (a : Word) (b : Byte) : (m.write a b).wf :=
  Memory.update_wf h (maskAddr_lt a) b

/-- Loading an image keeps the canonical form. -/
theorem Memory.copyImage_wf {m : Memory} (h : m.wf) (a : Word) (image : List Byte) : (m.copyImage a image).wf := by
  induction image generalizing m a with
  | nil => exact h
  | cons b rest ih => exact ih (Memory.write_wf h a b) (a + 1)

theorem State.storeBcd_wf {s : State} (h : s.mem.wf) (b : Byte) : (s.storeBcd b).wf :=
  Memory.write_wf (Memory.write_wf (Memory.write_wf h _ _) _ _) _ _

theorem State.storeBlock_wf {s : State} (h : s.mem.wf) (k : Nat) : (s.storeBlock k).wf := by
  induction k with
  | zero => exact h
  | succ k ih => exact Memory.write_wf ih _ _

/-! ### Transfers of several bytes (R55) -/

/-- An index no entry of a canonical list precedes or names reads as at reset. -/
theorem Memory.lookup_of_no_key (m : Memory) (k : Nat) (h : ∀ c ∈ m, c.1 ≠ k) : m.lookup k = resetByte k := by
  induction m with
  | nil => rfl
  | cons c rest ih =>
    have hc : c.1 ≠ k := h c (by simp)
    simp [Memory.lookup, hc, ih (fun d hd => h d (by simp [hd]))]

/-- A copied image: byte i stands at a + i, and every other index reads as before. -/
theorem Memory.copyImage_lookup (m : Memory) (a : Nat) (image : List Byte) (h : a + image.length ≤ 4096) (j : Nat) :
    (m.copyImage (BitVec.ofNat 16 a) image).lookup j =
      if a ≤ j ∧ j < a + image.length then image.getD (j - a) 0 else m.lookup j := by
  induction image generalizing m a with
  | nil => simp [Memory.copyImage]
  | cons b rest ih =>
    simp only [List.length_cons] at h
    have ha : BitVec.ofNat 16 a + 1 = BitVec.ofNat 16 (a + 1) := by
      apply BitVec.eq_of_toNat_eq; simp
    have hm : maskAddr (BitVec.ofNat 16 a) = a := by
      rw [maskAddr_eq]; simp; omega
    rw [Memory.copyImage, ha, ih _ (a + 1) (by omega), Memory.write, hm, Memory.lookup_update]
    by_cases hj : j = a
    · subst hj; simp
    · by_cases h1 : a + 1 ≤ j ∧ j < a + 1 + rest.length
      · have : j - a = (j - (a + 1)) + 1 := by omega
        rw [if_pos h1, if_pos (by simp; omega), this]; rfl
      · rw [if_neg h1, if_neg hj, if_neg (by simp; omega)]

/-- The first k writes of Fx55: I + r holds V[r] for r below k, and an address none of them names reads as before. -/
theorem State.storeBlock_read (s : State) (k : Nat) (hk : k ≤ 16) :
    (∀ r, (h : r < k) → (s.storeBlock k).read (s.addrAt r) = s.getV ⟨r, by omega⟩) ∧
    ∀ a, (∀ r < k, maskAddr a ≠ maskAddr (s.addrAt r)) → (s.storeBlock k).read a = s.read a := by
  induction k with
  | zero => exact ⟨fun r h => absurd h (by omega), fun a _ => rfl⟩
  | succ k ih =>
    obtain ⟨ih1, ih2⟩ := ih (by omega)
    have hfin : (Fin.ofNat 16 k : RegIdx) = ⟨k, by omega⟩ := by
      apply Fin.ext; simp; omega
    refine ⟨fun r h => ?_, fun a ha => ?_⟩
    · rw [State.storeBlock, hfin]
      by_cases hr : r = k
      · subst hr; exact Memory.write_read_same _ _ rfl
      · rw [Memory.write_read_other _ _ (by rw [maskAddr_addrAt, maskAddr_addrAt]; omega)]
        exact ih1 r (by omega)
    · rw [State.storeBlock, Memory.write_read_other _ _ (ha k (by omega))]
      exact ih2 a (fun r h => ha r (by omega))

/-- The first k writes of Fx65: V[r] is the byte at I + r for r below k; nothing but V changes. -/
theorem State.loadBlock_spec (s : State) (k : Nat) (hk : k ≤ 16) :
    (∀ r : RegIdx, (s.loadBlock k).getV r = if r.val < k then s.read (s.addrAt r.val) else s.getV r) ∧
    s.loadBlock k = s.setAllV (s.loadBlock k).v := by
  induction k with
  | zero => exact ⟨fun r => by simp [State.loadBlock], rfl⟩
  | succ k ih =>
    obtain ⟨ih1, ih2⟩ := ih (by omega)
    have hfin : (Fin.ofNat 16 k : RegIdx) = ⟨k, by omega⟩ := by
      apply Fin.ext; simp; omega
    refine ⟨fun r => ?_, ?_⟩
    · rw [State.loadBlock, hfin, State.setV_getV, ih1 r]
      by_cases hr : r.val = k
      · simp [Fin.ext_iff, hr]
      · have : r.val < k + 1 ↔ r.val < k := by omega
        simp [Fin.ext_iff, hr, this]
    · rw [State.loadBlock, ih2]; rfl

end Sys2Proof.Machine
end

