-- ==== Sys2Proof/Laws/Frames.lean ====
section
/-!
SUPPORT. The frame of each kind of update an instruction makes after the fetch advance (Safety.lean, `OnlyChanges`), and of the
register write inside a frame.
-/
namespace Sys2Proof.Machine

variable (s : State)

/-- PC alone. -/
theorem OnlyChanges.setPc (w : Word) : OnlyChanges [] [] s (s.setPc w) := by
  constructor <;> simp

/-- The fetch advance. -/
theorem OnlyChanges.advance : OnlyChanges [] [] s s.advance := OnlyChanges.setPc s _

/-- A frame may be widened. -/
theorem OnlyChanges.widen {p p' : List Part} {r r' : List RegIdx} {s t : State} (h : OnlyChanges p r s t)
    (hp : p ⊆ p') (hr : r ⊆ r') : OnlyChanges p' r' s t where
  regs x hx := h.regs x (fun e => hx (hr e))
  index n := h.index (fun e => n (hp e))
  stack n := h.stack (fun e => n (hp e))
  delay n := h.delay (fun e => n (hp e))
  sound n := h.sound (fun e => n (hp e))
  display n := h.display (fun e => n (hp e))
  memory n := h.memory (fun e => n (hp e))
  keys := h.keys
  fsr := h.fsr
  schedule := h.schedule
  cycles := h.cycles
  rnd := h.rnd

/-- Frames compose. -/
theorem OnlyChanges.trans {p : List Part} {r : List RegIdx} {s t u : State} (h : OnlyChanges p r s t)
    (k : OnlyChanges p r t u) : OnlyChanges p r s u where
  regs x hx := (k.regs x hx).trans (h.regs x hx)
  index n := (k.index n).trans (h.index n)
  stack n := ⟨(k.stack n).1.trans (h.stack n).1, (k.stack n).2.trans (h.stack n).2⟩
  delay n := (k.delay n).trans (h.delay n)
  sound n := (k.sound n).trans (h.sound n)
  display n x y := (k.display n x y).trans (h.display n x y)
  memory n a := (k.memory n a).trans (h.memory n a)
  keys := k.keys.trans h.keys
  fsr := k.fsr.trans h.fsr
  schedule := k.schedule.trans h.schedule
  cycles := k.cycles.trans h.cycles
  rnd := k.rnd.trans h.rnd

/-- A register write. -/
theorem OnlyChanges.setV (x : RegIdx) (b : Byte) : OnlyChanges [] [x] s (s.setV x b) := by
  constructor <;> simp
  intro r hr
  exact s.setV_getV_other b hr

/-- A write of the register block, which leaves the registers outside `l` alone. -/
theorem OnlyChanges.setAllV (v : Vector Byte 16) (l : List RegIdx) (h : ∀ r : RegIdx, r ∉ l → v[r] = s.getV r) :
    OnlyChanges [] l s (s.setAllV v) := by
  constructor <;> simp
  exact h

/-- I. -/
theorem OnlyChanges.setI (w : Word) : OnlyChanges [.index] [] s (s.setI w) := by
  constructor <;> simp

/-- DT. -/
theorem OnlyChanges.setDt (b : Byte) : OnlyChanges [.delay] [] s (s.setDt b) := by
  constructor <;> simp

/-- ST. -/
theorem OnlyChanges.setSt (b : Byte) : OnlyChanges [.sound] [] s (s.setSt b) := by
  constructor <;> simp

/-- FB. -/
theorem OnlyChanges.setFb (g : FrameBuffer) : OnlyChanges [.display] [] s (s.setFb g) := by
  constructor <;> simp

/-- M. -/
theorem OnlyChanges.setMem (m : Memory) : OnlyChanges [.memory] [] s (s.setMem m) := by
  constructor <;> simp

/-- A result and the flag. -/
theorem OnlyChanges.setResultAndFlag (x : RegIdx) (b : Byte) (f : Bool) :
    OnlyChanges [] [x, VF] s (s.setResultAndFlag x b f) :=
  ((OnlyChanges.setV s x b).widen (by simp) (by simp)).trans
    ((OnlyChanges.setV (s.setV x b) VF (flagByte f)).widen (by simp) (by simp))

/-- A taken or untaken skip. -/
theorem OnlyChanges.skipIf (c : Bool) : OnlyChanges [] [] s (s.skipIf c) := by
  rw [State.skipIf_eq]; exact OnlyChanges.setPc s _

/-- The advance before an update. -/
theorem OnlyChanges.after_advance {p : List Part} {r : List RegIdx} {t : State} (h : OnlyChanges p r s.advance t) :
    OnlyChanges p r s t :=
  ((OnlyChanges.advance s).widen (by simp) (by simp)).trans h

end Sys2Proof.Machine
end

