-- ==== Sys2Proof/Laws/PerInstr.lean ====
section
/-!
SUPPORT. Per-instruction facts about the syntax. Family StandsInItsRow: the word of every instruction selects the instruction's
row of the opcode map (30_encoding.md R75), one lemma per constructor.
-/
namespace Sys2Proof.Laws.StandsInItsRow

/-- The instruction's word selects its row. -/
def Statement (i : Instr) : Prop := i.row.selects (encodeWord i) = true

theorem selects_nnn (f : BitVec 4) (a : Addr) (p : Word) (h : formatNNN f 0 = p) : (formatNNN f a &&& 0xF000#16 == p) = true := by
  rw [masked_F000, opId_formatNNN, h]; exact beq_self_eq_true p

theorem selects_xkk (f : BitVec 4) (x : RegIdx) (kk : Byte) (p : Word) (h : formatNNN f 0 = p) :
    (formatXKK f x kk &&& 0xF000#16 == p) = true := by
  rw [masked_F000, opId_formatXKK, h]; exact beq_self_eq_true p

theorem selects_xyn (f : BitVec 4) (x y : RegIdx) (n : BitVec 4) (p : Word) (h : formatNNN f 0 = p) :
    (formatXYN f x y n &&& 0xF000#16 == p) = true := by
  rw [masked_F000, opId_formatXYN, h]; exact beq_self_eq_true p

theorem selects_xy (f : BitVec 4) (x y : RegIdx) (n : BitVec 4) (p : Word) (h : formatXYN f 0 0 n = p) :
    (formatXYN f x y n &&& 0xF00F#16 == p) = true := by
  rw [masked_F00F, opId_formatXYN, opN_formatXYN, h]; exact beq_self_eq_true p

theorem selects_xs (f : BitVec 4) (x : RegIdx) (kk : Byte) (p : Word) (h : formatXKK f 0 kk = p) :
    (formatXKK f x kk &&& 0xF0FF#16 == p) = true := by
  rw [masked_F0FF, opId_formatXKK, opKK_formatXKK, h]; exact beq_self_eq_true p

theorem cls : Statement .cls := rfl
theorem ret : Statement .ret := rfl
theorem jp (a : Addr) : Statement (.jp a) := selects_nnn _ _ _ rfl
theorem call (a : Addr) : Statement (.call a) := selects_nnn _ _ _ rfl
theorem seImm (x : RegIdx) (kk : Byte) : Statement (.seImm x kk) := selects_xkk _ _ _ _ rfl
theorem sneImm (x : RegIdx) (kk : Byte) : Statement (.sneImm x kk) := selects_xkk _ _ _ _ rfl
theorem seReg (x y : RegIdx) : Statement (.seReg x y) := selects_xy _ _ _ _ _ rfl
theorem ldImm (x : RegIdx) (kk : Byte) : Statement (.ldImm x kk) := selects_xkk _ _ _ _ rfl
theorem addImm (x : RegIdx) (kk : Byte) : Statement (.addImm x kk) := selects_xkk _ _ _ _ rfl
theorem ldReg (x y : RegIdx) : Statement (.ldReg x y) := selects_xy _ _ _ _ _ rfl
theorem orReg (x y : RegIdx) : Statement (.orReg x y) := selects_xy _ _ _ _ _ rfl
theorem andReg (x y : RegIdx) : Statement (.andReg x y) := selects_xy _ _ _ _ _ rfl
theorem xorReg (x y : RegIdx) : Statement (.xorReg x y) := selects_xy _ _ _ _ _ rfl
theorem addReg (x y : RegIdx) : Statement (.addReg x y) := selects_xy _ _ _ _ _ rfl
theorem subReg (x y : RegIdx) : Statement (.subReg x y) := selects_xy _ _ _ _ _ rfl
theorem shr (x y : RegIdx) : Statement (.shr x y) := selects_xy _ _ _ _ _ rfl
theorem subnReg (x y : RegIdx) : Statement (.subnReg x y) := selects_xy _ _ _ _ _ rfl
theorem shl (x y : RegIdx) : Statement (.shl x y) := selects_xy _ _ _ _ _ rfl
theorem sneReg (x y : RegIdx) : Statement (.sneReg x y) := selects_xy _ _ _ _ _ rfl
theorem ldI (a : Addr) : Statement (.ldI a) := selects_nnn _ _ _ rfl
theorem jpV0 (a : Addr) : Statement (.jpV0 a) := selects_nnn _ _ _ rfl
theorem rnd (x : RegIdx) (kk : Byte) : Statement (.rnd x kk) := selects_xkk _ _ _ _ rfl
theorem drw (x y : RegIdx) (n : Nat) : Statement (.drw x y n) := selects_xyn _ _ _ _ _ rfl
theorem skp (x : RegIdx) : Statement (.skp x) := selects_xs _ _ _ _ rfl
theorem sknp (x : RegIdx) : Statement (.sknp x) := selects_xs _ _ _ _ rfl
theorem ldVxDt (x : RegIdx) : Statement (.ldVxDt x) := selects_xs _ _ _ _ rfl
theorem ldVxK (x : RegIdx) : Statement (.ldVxK x) := selects_xs _ _ _ _ rfl
theorem ldDtVx (x : RegIdx) : Statement (.ldDtVx x) := selects_xs _ _ _ _ rfl
theorem ldStVx (x : RegIdx) : Statement (.ldStVx x) := selects_xs _ _ _ _ rfl
theorem addI (x : RegIdx) : Statement (.addI x) := selects_xs _ _ _ _ rfl
theorem ldF (x : RegIdx) : Statement (.ldF x) := selects_xs _ _ _ _ rfl
theorem ldB (x : RegIdx) : Statement (.ldB x) := selects_xs _ _ _ _ rfl
theorem storeRegs (x : RegIdx) : Statement (.storeRegs x) := selects_xs _ _ _ _ rfl
theorem loadRegs (x : RegIdx) : Statement (.loadRegs x) := selects_xs _ _ _ _ rfl

end Sys2Proof.Laws.StandsInItsRow
end

