-- ==== Sys2Proof/Laws/Step.lean ====
section
/-!
SUPPORT. What one step can do, said once: the cases of a cycle (40_engine.md R90, R100), of an event (R98) and of the loader
(70_reset_and_hazards.md R213); and what the skip, the tick and the search for the least pressed key give.
-/
namespace Sys2Proof.Machine

variable (s : State)

/-- A cycle that answers a next state ran at a running machine, and either executed the instruction at PC or raised
UnknownInstruction on a word that is none. -/
theorem State.cycle_next {r : Option Byte} {t : State} (h : s.cycle r = .next t) :
    s.fsr.halted = false ∧
    ((∃ i, decodeWord s.fetchWord = .ok i ∧ exec i (s.beginCycle r) = .next t) ∨
     (∃ e, decodeWord s.fetchWord = .error e ∧
        t = (s.beginCycle r).raise .unknownInstruction s.fetchWord s.pc)) := by
  unfold State.cycle at h
  split at h
  · cases h
  · next hr =>
    refine ⟨by simpa using hr, ?_⟩
    split at h
    · next i hi => exact .inl ⟨i, hi, h⟩
    · next e he => cases h; exact .inr ⟨e, he, rfl⟩

/-- A load: nothing once halted, ProgramTooLarge for a long image, else the copy. -/
theorem State.loadImage_cases (image : List Byte) :
    (s.fsr.halted = true ∧ s.loadImage image = s) ∨
    (s.fsr.halted = false ∧ Config.maxProgram < image.length ∧ s.loadImage image = s.raise .programTooLarge 0 0) ∨
    (s.fsr.halted = false ∧ image.length ≤ Config.maxProgram ∧
      s.loadImage image = s.setMem (s.mem.copyImage (BitVec.ofNat 16 Config.programBase) image)) := by
  unfold State.loadImage
  split
  · next h => exact .inl ⟨h, rfl⟩
  · next h =>
    split
    · next hl => exact .inr (.inl ⟨by simpa using h, hl, rfl⟩)
    · next hl => exact .inr (.inr ⟨by simpa using h, Nat.le_of_not_lt hl, rfl⟩)

/-- The load event is taken only once halted, where it does nothing, or before the first cycle. -/
theorem State.loadEvent_next {image : List Byte} {t : State} (h : s.loadEvent image = .next t) :
    (s.fsr.halted = true ∨ s.cycles = 0) ∧ t = s.loadImage image := by
  unfold State.loadEvent at h
  split at h
  · next hc => cases h; exact ⟨by simpa using hc, rfl⟩
  · cases h

/-- One step that answers a next state is one of these: a cycle where none is named, a named cycle, a tick, a keypad snapshot, a
load. -/
theorem step_next {t : State} (h : step s = .next t) :
    (s.schedule = [] ∧ s.cycle none = .next t) ∨
    (∃ b rest, s.schedule = .cycle b :: rest ∧ (s.withSchedule rest).cycle (some b) = .next t) ∨
    (∃ rest, s.schedule = .tick :: rest ∧ t = (s.withSchedule rest).tick) ∨
    (∃ k rest, s.schedule = .setKeys k :: rest ∧ t = (s.withSchedule rest).pressKeys k) ∨
    (∃ image rest, s.schedule = .load image :: rest ∧ (s.withSchedule rest).loadEvent image = .next t) := by
  unfold step at h
  split at h
  · next e => exact .inl ⟨e, h⟩
  · next b rest e => exact .inr (.inl ⟨b, rest, e, h⟩)
  · next rest e => cases h; exact .inr (.inr (.inl ⟨rest, e, rfl⟩))
  · next k rest e => cases h; exact .inr (.inr (.inr (.inl ⟨k, rest, e, rfl⟩)))
  · next image rest e => exact .inr (.inr (.inr (.inr ⟨image, rest, e, h⟩)))

/-! ### The skip's PC, the tick, the least pressed key -/

theorem State.skipIf_pc_toNat (c : Bool) :
    (s.skipIf c).pc.toNat = (s.pc.toNat + if c = true then 4 else 2) % 65536 := by
  rw [State.skipIf_eq]; cases c <;> simp [BitVec.toNat_add]

/-- A decrement that stops at 0 (60_exceptions.md R188). -/
theorem countDown_toNat (b : Byte) : (countDown b).toNat = b.toNat - 1 := by
  unfold countDown
  split
  · next h => simp [h]
  · next h =>
    have h0 : b.toNat ≠ 0 := fun e => h (BitVec.eq_of_toNat_eq (by simpa using e))
    have hb := b.isLt
    rw [BitVec.toNat_sub]; simp; omega

theorem State.tick_running (h : s.fsr.halted = false) : s.tick = (s.setDt (countDown s.dt)).setSt (countDown s.st) := by
  simp [State.tick, h]

theorem State.tick_halted (h : s.fsr.halted = true) : s.tick = s := by simp [State.tick, h]

theorem State.pressKeys_running (k : Keypad) (h : s.fsr.halted = false) : s.pressKeys k = s.setKeys k := by
  simp [State.pressKeys, h]

theorem State.pressKeys_halted (k : Keypad) (h : s.fsr.halted = true) : s.pressKeys k = s := by simp [State.pressKeys, h]

theorem allKeys_eq : allKeys = List.finRange 16 := by decide

/-- No key is found exactly if none is pressed (45_timers_keys.md R161). -/
theorem State.lowestKey_eq_none : s.lowestKey = none ↔ ∀ k, s.key k = false := by
  simp [State.lowestKey, allKeys_eq]

/-- The key found is the least pressed one. -/
theorem State.lowestKey_eq_some {k : RegIdx} (h : s.key k = true) (least : ∀ j, j < k → s.key j = false) :
    s.lowestKey = some k := by
  rw [State.lowestKey, allKeys_eq, List.find?_eq_some_iff_append]
  refine ⟨h, (List.finRange 16).take k.val, (List.finRange 16).drop (k.val + 1), ?_, ?_⟩
  · conv_lhs => rw [← List.take_append_drop k.val (List.finRange 16)]
    rw [List.drop_eq_getElem_cons (by simp)]
    simp
  · intro a ha
    obtain ⟨j, hj, rfl⟩ := List.mem_take_iff_getElem.mp ha
    simp at hj ⊢
    exact least _ (Fin.lt_def.mpr hj)

end Sys2Proof.Machine
end

