-- ==== Sys2Proof/Tests/Slice0.lean ====
section
/-!
SUPPORT. Tests. Words are written out bit by bit from the formats of spec/30_encoding.md R74 and the opcode map; expected results
are the vectors W<n> and T<n> of spec/95_test_vectors.md, named in each comment. The last part gives, for every statement with
hypotheses, a concrete state and operands that meet them.
-/
namespace Sys2Proof.Tests
open Sys2Proof Sys2Proof.Machine

/-! ### WellFormed: the one check, and a term it refuses -/

theorem test_wellFormed_refuses_row_count_16 : ¬ (Instr.drw 0 0 16).WellFormed := by decide
theorem test_wellFormed_accepts_row_counts_0_and_15 : (Instr.drw 15 15 15).WellFormed ∧ (Instr.drw 0 0 0).WellFormed := by
  decide

/-! ### Decoding: one word per constructor -/

theorem test_decode_control :
    decodeWord 0b0000000011101110 = .ok .ret ∧
    decodeWord 0b0001001000101000 = .ok (.jp 0x228) ∧
    decodeWord 0b0010101110101011 = .ok (.call 0xBAB) ∧
    decodeWord 0b1011111111110001 = .ok (.jpV0 0xFF1) := by decide

theorem test_decode_skips :
    decodeWord 0b0011000101000010 = .ok (.seImm 1 0x42) ∧
    decodeWord 0b0100111000011111 = .ok (.sneImm 14 0x1F) ∧
    decodeWord 0b0101000100100000 = .ok (.seReg 1 2) ∧
    decodeWord 0b1001101001010000 = .ok (.sneReg 10 5) ∧
    decodeWord 0b1110000110011110 = .ok (.skp 1) ∧
    decodeWord 0b1110100010100001 = .ok (.sknp 8) := by decide

theorem test_decode_loads_and_immediates :
    decodeWord 0b0110001111001010 = .ok (.ldImm 3 0xCA) ∧
    decodeWord 0b0111000111111111 = .ok (.addImm 1 0xFF) ∧
    decodeWord 0b1100011100001111 = .ok (.rnd 7 0x0F) := by decide

theorem test_decode_group_8 :
    decodeWord 0b1000001111110000 = .ok (.ldReg 3 15) ∧
    decodeWord 0b1000001001000001 = .ok (.orReg 2 4) ∧
    decodeWord 0b1000010000100010 = .ok (.andReg 4 2) ∧
    decodeWord 0b1000000110000011 = .ok (.xorReg 1 8) ∧
    decodeWord 0b1000000000010100 = .ok (.addReg 0 1) ∧
    decodeWord 0b1000111100010101 = .ok (.subReg 15 1) ∧
    decodeWord 0b1000011010010110 = .ok (.shr 6 9) ∧
    decodeWord 0b1000100101100111 = .ok (.subnReg 9 6) ∧
    decodeWord 0b1000000000011110 = .ok (.shl 0 1) := by decide

theorem test_decode_index_and_memory :
    decodeWord 0b1010000100100011 = .ok (.ldI 0x123) ∧
    decodeWord 0b1111010000011110 = .ok (.addI 4) ∧
    decodeWord 0b1111000000101001 = .ok (.ldF 0) ∧
    decodeWord 0b1111110000110011 = .ok (.ldB 12) ∧
    decodeWord 0b1111001101010101 = .ok (.storeRegs 3) ∧
    decodeWord 0b1111111101100101 = .ok (.loadRegs 15) := by decide

theorem test_decode_timers_and_keys :
    decodeWord 0b1111001100000111 = .ok (.ldVxDt 3) ∧
    decodeWord 0b1111001000001010 = .ok (.ldVxK 2) ∧
    decodeWord 0b1111000000010101 = .ok (.ldDtVx 0) ∧
    decodeWord 0b1111000100011000 = .ok (.ldStVx 1) := by decide

theorem test_decode_display :
    decodeWord 0b0000000011100000 = .ok .cls ∧
    decodeWord 0b1101000100100101 = .ok (.drw 1 2 5) := by decide

/-- T60, T68-T77: the illegal words of the spec's list are refused, each with the raw word. -/
theorem test_decode_illegal :
    decodeWord 0x8008 = .error (.unknownInstruction 0x8008) ∧ decodeWord 0x5121 = .error (.unknownInstruction 0x5121) ∧
    decodeWord 0x9ABF = .error (.unknownInstruction 0x9ABF) ∧ decodeWord 0xE000 = .error (.unknownInstruction 0xE000) ∧
    decodeWord 0xF000 = .error (.unknownInstruction 0xF000) ∧ decodeWord 0x0123 = .error (.unknownInstruction 0x0123) ∧
    decodeWord 0x01E0 = .error (.unknownInstruction 0x01E0) ∧ decodeWord 0x0000 = .error (.unknownInstruction 0x0000) ∧
    decodeWord 0xFFFF = .error (.unknownInstruction 0xFFFF) ∧ decodeWord 0x800F = .error (.unknownInstruction 0x800F) ∧
    decodeWord 0xE19F = .error (.unknownInstruction 0xE19F) := by decide

/-- The same list meets each case of the table under R80, and the legal words next to them do not. -/
theorem test_illegalWord :
    IllegalWord 0x0123 ∧ IllegalWord 0x5121 ∧ IllegalWord 0x8008 ∧ IllegalWord 0x9ABF ∧ IllegalWord 0xE000 ∧
    IllegalWord 0xF000 ∧ ¬ IllegalWord 0x00E0 ∧ ¬ IllegalWord 0x5120 ∧ ¬ IllegalWord 0x800E ∧ ¬ IllegalWord 0x9AB0 ∧
    ¬ IllegalWord 0xE09E ∧ ¬ IllegalWord 0xF007 := by
  refine ⟨?_, ?_, ?_, ?_, ?_, ?_, ?_, ?_, ?_, ?_, ?_, ?_⟩ <;> decide

theorem test_decodeTableWord :
    decodeTableWord 16 0x2BAB = some (.call 0xBAB) ∧ decodeTableWord 16 0x00EE = some .ret ∧ decodeTableWord 16 0 = none := by
  decide

theorem test_decode_needs_two_bytes : decode [0x12] = .error .truncated ∧ decode [] = .error .truncated := by decide

/-- R53: the first byte is the high one. -/
theorem test_encode_byte_order : encode (.jp 0x234) = [0x12, 0x34] := by decide

/-! ### One step from reset, the word under test at 0x200 -/

/-- The reset state with a word at PC. -/
def at200 (w : Nat) : State := State.reset.withFetchWord 16 w

/-- What a test reads of the next state; false where the step stops. -/
def after (s : State) (p : State → Bool) : Bool :=
  match step s with
  | .next t => p t
  | .fault _ => false
  | .refused _ => false

theorem test_reset_memory_wf : State.reset.mem.wf := by decide

/-- T1. -/
theorem test_jp : after (at200 0x1228) (fun t => t.pc == 0x228) = true := by decide
/-- T3. -/
theorem test_jpV0_not_masked : after ((at200 0xBFFF).setV 0 0xFF) (fun t => t.pc == 0x10FE) = true := by decide
/-- T3 goes on: a PC above 0xFFF fetches at the masked address (R51). -/
theorem test_fetch_masks_pc : (((at200 0xB000).setPc 0x10FE).withFetchWord 16 0x1ABC).read 0x0FE = 0x1A := by decide
/-- T5, W6. -/
theorem test_call : after ((State.reset.setPc 0x2FE).withFetchWord 16 0x2BAB)
    (fun t => t.pc == 0xBAB && t.sp == 1 && t.stack[0] == 0x300) = true := by decide
/-- T9: the address pushed is reduced modulo 65536. -/
theorem test_call_at_the_top : after ((State.reset.setPc 0xFFFE).withFetchWord 16 0x2400)
    (fun t => t.pc == 0x400 && t.sp == 1 && t.stack[0] == 0) = true := by decide

/-- 0xBAB with one entry, 0x300, on the stack. -/
def inSubroutine : State := { State.reset.setPc 0xBAB with sp := 1, stack := State.reset.stack.set 0 0x300 }

/-- T8. -/
theorem test_ret : after (inSubroutine.withFetchWord 16 0x00EE)
    (fun t => t.pc == 0x300 && t.sp == 0 && t.stack[0] == 0x300) = true := by decide
/-- T7. -/
theorem test_ret_underflow : after (at200 0x00EE)
    (fun t => t == ((at200 0x00EE).beginCycle none).raise .stackUnderflow 0x00EE 0x200) = true := by decide
/-- T6. -/
theorem test_call_overflow : after { at200 0x2300 with sp := 16 }
    (fun t => t.fsr == ⟨true, 2, 0x2300, 0x200⟩ && t.pc == 0x200 && t.sp == 16) = true := by decide
/-- T74, program P7: reset with nothing placed. -/
theorem test_unknown_instruction : after State.reset
    (fun t => t.fsr == ⟨true, 1, 0x0000, 0x200⟩ && t.pc == 0x200) = true := by decide

/-- T10, T11. -/
theorem test_seImm : after ((at200 0x3142).setV 1 0x42) (fun t => t.pc == 0x204) = true ∧
    after ((at200 0x3142).setV 1 0x41) (fun t => t.pc == 0x202) = true := by decide
/-- T12. -/
theorem test_sneImm : after ((at200 0x4142).setV 1 0x42) (fun t => t.pc == 0x202) = true := by decide
/-- T13. -/
theorem test_seReg : after (((at200 0x5120).setV 1 9).setV 2 9) (fun t => t.pc == 0x204) = true := by decide
/-- T14, T15. -/
theorem test_sneReg : after (((at200 0x9120).setV 1 9).setV 2 9) (fun t => t.pc == 0x202) = true ∧
    after (((at200 0x9120).setV 1 9).setV 2 10) (fun t => t.pc == 0x204) = true := by decide

/-- The keypad with one key pressed. -/
def oneKey (k : RegIdx) : Keypad := State.reset.keys.set k.val true

/-- T16. -/
theorem test_skp : after (((at200 0xE19E).setV 1 0x13).setKeys (oneKey 3)) (fun t => t.pc == 0x204) = true := by decide
/-- T17, T18. -/
theorem test_sknp : after (((at200 0xE1A1).setV 1 0x13).setKeys (oneKey 3)) (fun t => t.pc == 0x202) = true ∧
    after ((at200 0xE1A1).setV 1 3) (fun t => t.pc == 0x204) = true := by decide

theorem test_ldImm : after (at200 0x63CA) (fun t => t.getV 3 == 0xCA && t.pc == 0x202) = true := by decide
/-- T35. -/
theorem test_addImm : after ((at200 0x70FF).setV 0 1) (fun t => t.getV 0 == 0 && t.getV VF == 0) = true := by decide
/-- T39. -/
theorem test_ldReg : after ((at200 0x8010).setV 1 0x99) (fun t => t.getV 0 == 0x99 && t.getV 1 == 0x99) = true := by decide
/-- T36. -/
theorem test_orReg : after ((((at200 0x8011).setV 0 0xF0).setV 1 0x0F).setV VF 0x77)
    (fun t => t.getV 0 == 0xFF && t.getV VF == 0x77) = true := by decide
/-- T37. -/
theorem test_andReg : after (((at200 0x8012).setV 0 0xF0).setV 1 0x3C) (fun t => t.getV 0 == 0x30) = true := by decide
/-- T38. -/
theorem test_xorReg : after (((at200 0x8013).setV 0 0xFF).setV 1 0x0F) (fun t => t.getV 0 == 0xF0) = true := by decide
/-- W1. -/
theorem test_addReg : after (((at200 0x8014).setV 0 0xFF).setV 1 0x0A)
    (fun t => t.getV 0 == 9 && t.getV VF == 1 && t.pc == 0x202) = true := by decide
/-- T23: x = F, the flag is the final value. -/
theorem test_addReg_into_VF : after (((at200 0x8F14).setV VF 1).setV 1 2) (fun t => t.getV VF == 0) = true := by decide
/-- T24, T25. -/
theorem test_subReg : after (((at200 0x8015).setV 0 7).setV 1 7) (fun t => t.getV 0 == 0 && t.getV VF == 1) = true ∧
    after (((at200 0x8015).setV 0 3).setV 1 5) (fun t => t.getV 0 == 0xFE && t.getV VF == 0) = true := by decide
/-- T28: y is not read. -/
theorem test_shr : after (((at200 0x8016).setV 0 5).setV 1 0x80) (fun t => t.getV 0 == 2 && t.getV VF == 1) = true := by decide
/-- T29. -/
theorem test_shr_of_VF : after ((at200 0x8F06).setV VF 5) (fun t => t.getV VF == 1) = true := by decide
/-- T32, T33. -/
theorem test_subnReg : after (((at200 0x8017).setV 0 5).setV 1 3) (fun t => t.getV 0 == 0xFE && t.getV VF == 0) = true ∧
    after (((at200 0x8017).setV 0 3).setV 1 5) (fun t => t.getV 0 == 2 && t.getV VF == 1) = true := by decide
/-- T30. -/
theorem test_shl : after ((at200 0x801E).setV 0 0x81) (fun t => t.getV 0 == 2 && t.getV VF == 1) = true := by decide
/-- T31. -/
theorem test_shl_of_VF : after ((at200 0x8F0E).setV VF 0x40) (fun t => t.getV VF == 0) = true := by decide
/-- T40: the byte the cycle's event names. -/
theorem test_rnd_named : after { at200 0xC00F with schedule := [.cycle 0xAB] } (fun t => t.getV 0 == 0x0B) = true := by decide
/-- T41: whatever the byte is. -/
theorem test_rnd_masked (s : State) : exec (.rnd 0 0) s = .next (s.advance.setV 0 0) := by simp [exec, execRnd]

/-- T44. -/
theorem test_ldI : after (at200 0xA123) (fun t => t.i == 0x123) = true := by decide
/-- T45. -/
theorem test_addI : after (((at200 0xF01E).setI 0xFFF).setV 0 1) (fun t => t.i == 0 && t.getV VF == 0) = true := by decide
/-- T48, T49. -/
theorem test_ldF : after ((at200 0xF029).setV 0 0x1A) (fun t => t.i == 0x32) = true ∧
    after ((at200 0xF029).setV 0 0x0F) (fun t => t.i == 0x4B) = true := by decide
/-- W7. -/
theorem test_ldB : after (((at200 0xF033).setI 0x300).setV 0 0xD5)
    (fun t => t.read 0x300 == 2 && t.read 0x301 == 1 && t.read 0x302 == 3) = true := by decide
/-- T50: addresses past 0xFFF continue at 0x000. -/
theorem test_ldB_at_the_top : after (((at200 0xF033).setI 0xFFE).setV 0 0xFF)
    (fun t => t.read 0xFFE == 2 && t.read 0xFFF == 5 && t.read 0x000 == 5 && t.i == 0xFFE) = true := by decide
/-- T51. -/
theorem test_storeRegs_at_the_top : after
    ((((((at200 0xF355).setI 0xFFE).setV 0 1).setV 1 2).setV 2 3).setV 3 4)
    (fun t => t.read 0xFFE == 1 && t.read 0xFFF == 2 && t.read 0 == 3 && t.read 1 == 4 && t.read 2 == 0x90) = true := by decide
/-- T53: the font is readable; V5 is not loaded. -/
theorem test_loadRegs : after ((at200 0xF465).setV 5 7)
    (fun t => t.getV 0 == 0xF0 && t.getV 1 == 0x90 && t.getV 4 == 0xF0 && t.getV 5 == 7) = true := by decide

/-- T55. -/
theorem test_ldVxDt : after ((at200 0xF307).setDt 0x3C) (fun t => t.getV 3 == 0x3C) = true := by decide
/-- T58: the lowest of two pressed keys. -/
theorem test_ldVxK : after ((at200 0xF20A).setKeys ((oneKey 9).set 3 true))
    (fun t => t.getV 2 == 3 && t.pc == 0x202) = true := by decide
/-- T59: the wait. -/
theorem test_ldVxK_waits : after ((at200 0xF20A).setV 2 0x66) (fun t => t.getV 2 == 0x66 && t.pc == 0x200) = true := by decide
/-- T56, the cycle. -/
theorem test_ldDtVx : after ((at200 0xF015).setV 0 5) (fun t => t.dt == 5) = true := by decide
/-- T57, the cycle. -/
theorem test_ldStVx : after ((at200 0xF118).setV 1 1) (fun t => t.st == 1 && t.soundOn && !t.tick.soundOn) = true := by decide

/-- A framebuffer with pixel (1, 0) on only. -/
def onePixel : FrameBuffer := FrameBuffer.blank.flip 1 0

/-- T78. -/
theorem test_cls : after ((at200 0x00E0).setFb onePixel) (fun t => t.fb == FrameBuffer.blank) = true := by decide
/-- T67: row F0 over the pixel (1, 0). -/
theorem test_drw_collides : after ((at200 0xD011).setFb onePixel)
    (fun t => t.pixel 0 0 && !t.pixel 1 0 && t.pixel 2 0 && t.pixel 3 0 && !t.pixel 4 0 && t.getV VF == 1) = true := by decide
/-- W12: wrapping on both axes. -/
theorem test_drw_wraps : after (((at200 0xD015).setV 0 0x3F).setV 1 0x1F)
    (fun t => t.pixel 63 31 && t.pixel 2 31 && t.pixel 63 0 && !t.pixel 0 0 && t.pixel 2 0 && t.pixel 3 3 == false &&
      t.pixel 2 3 && t.getV VF == 0) = true := by decide

/-! ### Events -/

/-- T56, the sixth tick: a timer at 0 stays at 0. -/
theorem test_tick_stops_at_zero : after { State.reset with schedule := [.tick], dt := 0, st := 5 }
    (fun t => t.dt == 0 && t.st == 4) = true := by decide
/-- T80: no tick takes effect once halted. -/
theorem test_tick_after_halt : after { State.reset with schedule := [.tick], dt := 4, fsr := ⟨true, 1, 0, 0x200⟩ }
    (fun t => t.dt == 4) = true := by decide
theorem test_setKeys : after { State.reset with schedule := [.setKeys (oneKey 7)] } (fun t => t.key 7 && !t.key 6) = true := by
  decide
/-- R213: byte i at 0x200 + i. -/
theorem test_load : after { State.reset with schedule := [.load [0x12, 0x0C]] }
    (fun t => t.read 0x200 == 0x12 && t.read 0x201 == 0x0C && t.fetchWord == 0x120C) = true := by decide
theorem test_load_after_first_cycle : step { State.reset with schedule := [.load []], cycles := 1 } =
    .refused .loadAfterFirstCycle := rfl
theorem test_cycle_after_halt : step { State.reset with fsr := ⟨true, 1, 0, 0x200⟩ } = .fault .halted := rfl

/-! ### Witnesses: for each statement with hypotheses, values that meet all of them, a clause at a time -/

theorem witness_DecodeOfEncodeIsTheInstruction : (Instr.drw 15 0 15).WellFormed := by decide
theorem witness_EveryDecodedWordIsItsInstructionsWord : decodeWord 0xDF0F = .ok (.drw 15 0 15) := by decide
theorem witness_DecoderSelectsTheRowOfTheOpcodeMap :
    Instr.row (.drw 0 0 0) ∈ opcodeMap ∧ (Instr.row (.drw 0 0 0)).selects 0xDF0F = true := by decide
theorem witness_GroupsFiveAndNineRequireAZeroNibble :
    opId 0x5120 = 0x5#4 ∧ opN 0x5120 = 0x0#4 ∧ opId 0x512F = 0x5#4 ∧ opN 0x512F ≠ 0x0#4 ∧
    opId 0x9120 = 0x9#4 ∧ opN 0x9120 = 0x0#4 ∧ opId 0x9121 = 0x9#4 ∧ opN 0x9121 ≠ 0x0#4 := by decide
theorem witness_ExactlyTheIllegalWordsAreRefused : IllegalWord 0x00E1 ∧ ¬ IllegalWord 0x00E0 := by
  constructor <;> decide
/-- The last font byte and the byte after it. -/
theorem witness_ResetLeavesTheStatedValues : State.reset.read 0x04F = 0x80 ∧ State.reset.read 0x050 = 0 := by decide
theorem witness_CanonicalMemoriesThatReadAlikeAreEqual :
    Memory.wf [(0x000, 0x12), (0xFFF, 0x34)] ∧ Memory.write (Memory.write [] 0xFFF 0x34) 0x000 0x12 = [(0x000, 0x12), (0xFFF, 0x34)] := by
  decide
/-- The word stored is the one fetched next: PC = I after the store. -/
theorem witness_StoredBytesAreFetchedByTheNextCycle :
    ∃ t, exec (.storeRegs 1) (State.reset.setI 0x202) = .next t ∧
      t.pc.toNat % 4096 = (State.reset.setI 0x202).i.toNat % 4096 := ⟨_, rfl, rfl⟩

/-- The reset state with a word at PC and events due. -/
def due (w : Nat) (events : List Event) : State := { at200 w with schedule := events }

theorem witness_StepRunsTheDecodedInstruction :
    (due 0x1228 []).fsr.halted = false ∧ (due 0x1228 []).schedule = [] ∧
    decode [(due 0x1228 []).read 0x200, (due 0x1228 []).read 0x201] = .ok (.jp 0x228, []) ∧
    (due 0xC00F [.cycle 0xAB]).schedule = [.cycle 0xAB] ∧
    decode [(due 0xC00F [.cycle 0xAB]).read 0x200, (due 0xC00F [.cycle 0xAB]).read 0x201] = .ok (.rnd 0 0x0F, []) := by decide
theorem witness_UnknownInstructionHaltsPrecisely :
    State.reset.fsr.halted = false ∧ IllegalWord State.reset.fetchWord ∧
    (due 0 [.cycle 1]).fsr.halted = false ∧ IllegalWord (due 0 [.cycle 1]).fetchWord := by
  refine ⟨?_, ?_, ?_, ?_⟩ <;> decide

/-- A machine halted by the illegal word 0x0000 at 0x200, with events due. -/
def halted (events : List Event) : State := { State.reset with fsr := ⟨true, 1, 0, 0x200⟩, schedule := events }

theorem witness_HaltedMachineNeverChanges :
    (halted [.tick, .setKeys (oneKey 3), .load [1]]).fsr.halted = true ∧
    core.run 3 (halted [.tick, .setKeys (oneKey 3), .load [1]]) = .next (halted []) := ⟨rfl, rfl⟩
theorem witness_StepStopsOnlyWhenHaltedOrLateLoad :
    step (halted []) = .fault .halted ∧ step (halted [.cycle 0]) = .fault .halted ∧
    step { due 0x1228 [.load [1]] with cycles := 1 } = .refused .loadAfterFirstCycle := ⟨rfl, rfl, rfl⟩
theorem witness_TickCountsBothTimersDown : ({ State.reset with dt := 0, st := 255 } : State).fsr.halted = false := by decide
theorem witness_TicksCountTheTimersToZero :
    (due 0x1228 [.tick, .tick, .cycle 0]).fsr.halted = false ∧
    (due 0x1228 [.tick, .tick, .cycle 0]).schedule = List.replicate 2 .tick ++ [.cycle 0] := by decide
theorem witness_KeypadEventReplacesTheSnapshot :
    (due 0x1228 [.setKeys (oneKey 15)]).fsr.halted = false ∧ (due 0x1228 [.setKeys (oneKey 15)]).schedule = [.setKeys (oneKey 15)] :=
  ⟨rfl, rfl⟩

/-- Reset with one load due. -/
def loading (n : Nat) : State := { State.reset with schedule := [.load (List.replicate n 0x12)] }

/-- The longest image that fits. -/
theorem witness_LoadCopiesTheImage :
    (loading 0xE00).fsr.halted = false ∧ (loading 0xE00).cycles = 0 ∧
    (loading 0xE00).schedule = [.load (List.replicate 0xE00 0x12)] ∧ (List.replicate 0xE00 (0x12 : Byte)).length ≤ 0xE00 :=
  ⟨rfl, rfl, rfl, by rw [List.length_replicate]⟩
/-- One byte more. -/
theorem witness_OversizedImageHaltsBeforeTheFirstCycle :
    (loading 0xE01).fsr.halted = false ∧ (loading 0xE01).cycles = 0 ∧
    (loading 0xE01).schedule = [.load (List.replicate 0xE01 0x12)] ∧ 0xE00 < (List.replicate 0xE01 (0x12 : Byte)).length :=
  ⟨rfl, rfl, rfl, by rw [List.length_replicate]; decide⟩

/-- An instruction that completes, one that raises. -/
theorem witness_OnlyCallAndReturnRaise :
    exec .ret inSubroutine = .next (({ inSubroutine with sp := 0 }).setPc 0x300) ∧
    ∃ t, exec .ret State.reset = .next t ∧ t.fsr ≠ State.reset.fsr := ⟨rfl, _, rfl, by decide⟩
/-- Fx33 at 0xFFE: the address after its three bytes, which wrap, is outside. -/
theorem witness_EveryInstructionWritesOnlyWhatItsRuleNames :
    (∃ t, exec (.ldB 0) (State.reset.setI 0xFFE) = .next t) ∧
    ∀ k < storedBytes (.ldB 0), maskAddr 0x001 ≠ maskAddr ((State.reset.setI 0xFFE).addrAt k) := ⟨⟨_, rfl⟩, by decide⟩
theorem witness_SequentialInstructionsAdvancePcByTwo :
    goesOnInSequence State.reset .cls ∧ goesOnInSequence State.reset (.seImm 1 0x42) ∧
    goesOnInSequence State.reset (.sneImm 1 0) ∧ goesOnInSequence (State.reset.setV 1 9) (.seReg 1 2) ∧
    goesOnInSequence State.reset (.sneReg 1 2) ∧ goesOnInSequence State.reset (.skp 1) ∧
    goesOnInSequence (State.reset.setKeys (oneKey 0)) (.sknp 1) ∧ goesOnInSequence (State.reset.setKeys (oneKey 15)) (.ldVxK 1) :=
  ⟨trivial, show State.reset.getV 1 ≠ 0x42 by decide, rfl,
    show (State.reset.setV 1 9).getV 1 ≠ (State.reset.setV 1 9).getV 2 by decide, rfl, rfl, rfl, 15, rfl⟩
theorem witness_TakenSkipsAdvancePcByFour :
    skipCondition State.reset (.seImm 1 0) = some true ∧ skipCondition State.reset (.sneImm 1 0x42) = some true ∧
    skipCondition State.reset (.seReg 1 2) = some true ∧ skipCondition (State.reset.setV 1 9) (.sneReg 1 2) = some true ∧
    skipCondition (State.reset.setKeys (oneKey 0)) (.skp 1) = some true ∧ skipCondition State.reset (.sknp 1) = some true := by
  decide

theorem reset_storageForm : StorageForm State.reset := ⟨Memory.nil_wf, by decide⟩
theorem reset_faultRecord : FaultRecord State.reset := ⟨fun _ => rfl, fun h => (nomatch h)⟩
theorem witness_StepKeepsStorageForm : StorageForm State.reset ∧ ∃ t, step State.reset = .next t :=
  ⟨reset_storageForm, _, rfl⟩
/-- Running; and halted by each of the four conditions, with a tick due. -/
theorem witness_StepKeepsTheFaultRecord_running : FaultRecord State.reset ∧ ∃ t, step State.reset = .next t :=
  ⟨reset_faultRecord, _, rfl⟩
theorem witness_StepKeepsTheFaultRecord_unknownInstruction :
    FaultRecord (halted [.tick]) ∧ ∃ t, step (halted [.tick]) = .next t :=
  ⟨⟨fun h => (nomatch h), fun _ => .unknownInstruction rfl rfl rfl (by decide)⟩, _, rfl⟩
theorem witness_StepKeepsTheFaultRecord_stackOverflow :
    FaultRecord { due 0x2300 [.tick] with sp := 16, fsr := ⟨true, 2, 0x2300, 0x200⟩ } ∧
    ∃ t, step { due 0x2300 [.tick] with sp := 16, fsr := ⟨true, 2, 0x2300, 0x200⟩ } = .next t :=
  ⟨⟨fun h => (nomatch h), fun _ => .stackOverflow rfl (by decide) rfl (by decide) rfl⟩, _, rfl⟩
theorem witness_StepKeepsTheFaultRecord_stackUnderflow :
    FaultRecord { due 0x00EE [.tick] with fsr := ⟨true, 3, 0x00EE, 0x200⟩ } ∧
    ∃ t, step { due 0x00EE [.tick] with fsr := ⟨true, 3, 0x00EE, 0x200⟩ } = .next t :=
  ⟨⟨fun h => (nomatch h), fun _ => .stackUnderflow rfl (by decide) rfl rfl rfl⟩, _, rfl⟩
theorem witness_StepKeepsTheFaultRecord_programTooLarge :
    FaultRecord { State.reset with schedule := [.tick], fsr := ⟨true, 4, 0, 0⟩ } ∧
    ∃ t, step { State.reset with schedule := [.tick], fsr := ⟨true, 4, 0, 0⟩ } = .next t :=
  ⟨⟨fun h => (nomatch h), fun _ => .programTooLarge rfl rfl rfl rfl⟩, _, rfl⟩

/-- The last free entry, and the last entry in use. -/
theorem witness_CallPushesTheAddressAfterIt : ({ State.reset with sp := 15 } : State).sp ≠ 16 := by decide
theorem witness_ReturnPopsTheTopEntry : ({ State.reset with sp := 16 } : State).sp ≠ 0 ∧ inSubroutine.sp ≠ 0 := by decide
theorem witness_StackBoundsRaisePrecisely : ({ State.reset with sp := 16 } : State).sp = 16 ∧ State.reset.sp = 0 := ⟨rfl, rfl⟩
theorem witness_ReturnResumesAfterTheCall :
    State.reset.sp ≠ 16 ∧ ∃ t u : State, exec (.call 0x300) State.reset = .next t ∧ u.stack = t.stack ∧ u.sp = t.sp :=
  ⟨by decide, _, _, rfl, rfl, rfl⟩

/-- The key pressed, and not pressed; the register's high nibble is not 0. -/
theorem witness_KeySkipsTestTheKeyOfTheLowNibble :
    (3 : RegIdx).val = ((State.reset.setV 1 0x13).getV 1).toNat % 16 ∧ (State.reset.setKeys (oneKey 3)).key 3 = true ∧
    State.reset.key 3 = false := by decide
theorem witness_results_outside_VF_and_in_VF : (0 : RegIdx) ≠ VF ∧ (14 : RegIdx) ≠ VF ∧ (15 : RegIdx) = VF := by decide
theorem witness_RandomIsTheCyclesByteMasked : ({ State.reset with rnd := some 0xAB } : State).rnd = some 0xAB ∧ State.reset.rnd = none :=
  ⟨rfl, rfl⟩
theorem witness_BcdStoresThreeDigits : ∀ k < 3, maskAddr 0x303 ≠ maskAddr ((State.reset.setI 0x300).addrAt k) := by decide
theorem witness_StoreBlockWritesTheRegisters :
    (3 : RegIdx) ≤ 3 ∧ ∀ k ≤ (3 : RegIdx).val, maskAddr 0x304 ≠ maskAddr ((State.reset.setI 0x300).addrAt k) := by decide
theorem witness_LoadBlockReadsTheRegisters : (15 : RegIdx) ≤ 15 ∧ (0 : RegIdx) ≤ 0 := by decide
theorem witness_StoreThenLoadRestoresTheRegisters :
    ∃ t u : State, exec (.storeRegs 3) (State.reset.setI 0x400) = .next t ∧ u.i = t.i ∧ u.mem = t.mem ∧ u.getV 3 = 0x99 :=
  ⟨_, State.setV (State.setI State.reset 0x400) 3 0x99, rfl, rfl, rfl, rfl⟩
theorem witness_SetSoundTimer : (State.reset.setV 1 1).fsr.halted = false ∧ (State.reset.setV 1 1).getV 1 = 1 := ⟨rfl, rfl⟩
/-- The first key, the last key, and the lower of two. -/
theorem witness_WaitTakesTheLeastPressedKey :
    ((State.reset.setKeys (oneKey 0)).key 0 = true ∧ ∀ j, j < (0 : RegIdx) → (State.reset.setKeys (oneKey 0)).key j = false) ∧
    ((State.reset.setKeys (oneKey 15)).key 15 = true ∧ ∀ j, j < (15 : RegIdx) → (State.reset.setKeys (oneKey 15)).key j = false) ∧
    ((State.reset.setKeys ((oneKey 9).set 3 true)).key 3 = true ∧
      ∀ j, j < (3 : RegIdx) → (State.reset.setKeys ((oneKey 9).set 3 true)).key j = false) := by decide
theorem witness_WaitWithNoKeyChangesNothing : ∀ k, State.reset.key k = false := by decide
theorem witness_WaitingLetsTheTimersCount :
    WaitsForKey 2 (due 0xF20A [.cycle 0, .tick, .cycle 1]) ∧
    (due 0xF20A [.cycle 0, .tick, .cycle 1]).schedule = [.cycle 0, .tick, .cycle 1] ++ [] ∧
    ∀ e ∈ ([.cycle 0, .tick, .cycle 1] : List Event), e = .tick ∨ ∃ b, e = .cycle b :=
  ⟨⟨rfl, by decide, by decide⟩, rfl, by simp⟩
/-- Glyph 0's row 0 over a pixel that is on, and a pixel no set bit falls on. -/
theorem witness_DrawXorsTheSpriteAndReportsCollision :
    (Instr.drw 0 1 1).WellFormed ∧ SpriteCovers (State.reset.setFb onePixel) 0 1 1 1 0 ∧
    (State.reset.setFb onePixel).pixel 1 0 = true ∧ ¬ SpriteCovers (State.reset.setFb onePixel) 0 1 1 1 1 :=
  ⟨by decide, ⟨0, 1, by decide, by decide, rfl, by decide, by decide⟩, by decide,
    fun ⟨r, _, hr, _, _, _, hy⟩ => by
      have : r = 0 := by omega
      subst this; revert hy; decide⟩
/-- A sprite of no rows falls on no pixel. -/
theorem witness_DrawXorsTheSpriteAndReportsCollision_no_rows :
    (Instr.drw 0 1 0).WellFormed ∧ ¬ ∃ px py, SpriteCovers State.reset 0 1 0 px py ∧ State.reset.pixel px py = true :=
  ⟨by decide, fun ⟨_, _, ⟨r, _, hr, _⟩, _⟩ => absurd hr (Nat.not_lt_zero r)⟩
theorem witness_DrawingTwiceRestoresTheDisplay :
    (14 : RegIdx) ≠ VF ∧ (0 : RegIdx) ≠ VF ∧ (Instr.drw 14 0 15).WellFormed := by decide

end Sys2Proof.Tests
end

section
/-!
PROOFS. Control transfer (spec/41_control_flow.md): the word of JP and the state a jump leaves.
-/
namespace Sys2Proof.Machine

/-- An address field widened to PC's width keeps its value. -/
@[simp] theorem zextAddr_toNat (nnn : Addr) : (zextAddr nnn).toNat = nnn.toNat :=
  BitVec.toNat_setWidth_of_le (by decide)

/-- Of a word in format `NNN`, the mask 0xF000 keeps the group nibble alone (30_encoding.md R74, R75). -/
theorem formatNNN_masked (f : BitVec 4) (nnn : Addr) : formatNNN f nnn &&& 0xF000#16 = formatNNN f 0 := by
  rw [masked_F000, opId_formatNNN]

/-- The row of JP in the opcode map. -/
theorem encodes_jp (nnn : Addr) : Encodes (.jp nnn) 0xF000#16 0x1000#16 := by
  constructor
  · exact formatNNN_masked 0x1 nnn
  · simp [encodeWord, decodeWord]

/-- The meaning of JP: the fetch advance, then PC overwritten with the target. -/
theorem exec_jp (nnn : Addr) (s : State) : exec (.jp nnn) s = .next (s.advance.setPc (zextAddr nnn)) := rfl

/-- Settles O28: JP is two updates of PC, and neither reaches another field. -/
theorem jumpSetsPcToTheAddress : Obligations.JumpSetsPcToTheAddress := by
  intro nnn s
  have frame : OnlyChanges [] [] s (s.advance.setPc (zextAddr nnn)) :=
    OnlyChanges.after_advance s (OnlyChanges.setPc s.advance _)
  exact ⟨encodes_jp nnn, _, exec_jp nnn s, zextAddr_toNat nnn, frame⟩

end Sys2Proof.Machine
end

section
/-!
PROOFS. Skips (spec/42_skip.md): the words of the four comparing skips, and what a skip leaves under its condition.
-/
namespace Sys2Proof.Machine

/-- An instruction whose word selects its row, and is read back, is encoded as the row says (30_encoding.md R75). -/
theorem encodes_row {i : Instr} (selects : Laws.StandsInItsRow.Statement i) (decodes : decodeWord (encodeWord i) = .ok i) :
    Encodes i i.row.mask i.row.pattern :=
  ⟨beq_iff_eq.mp selects, decodes⟩

theorem encodes_seImm (x : RegIdx) (kk : Byte) : Encodes (.seImm x kk) 0xF000#16 0x3000#16 :=
  encodes_row (Laws.StandsInItsRow.seImm x kk) (by simp [encodeWord, decodeWord])

theorem encodes_sneImm (x : RegIdx) (kk : Byte) : Encodes (.sneImm x kk) 0xF000#16 0x4000#16 :=
  encodes_row (Laws.StandsInItsRow.sneImm x kk) (by simp [encodeWord, decodeWord])

theorem encodes_seReg (x y : RegIdx) : Encodes (.seReg x y) 0xF00F#16 0x5000#16 :=
  encodes_row (Laws.StandsInItsRow.seReg x y) (by simp [encodeWord, decodeWord, decodeNibbleZero])

theorem encodes_sneReg (x y : RegIdx) : Encodes (.sneReg x y) 0xF00F#16 0x9000#16 :=
  encodes_row (Laws.StandsInItsRow.sneReg x y) (by simp [encodeWord, decodeWord, decodeNibbleZero])

theorem exec_seImm (x : RegIdx) (kk : Byte) (s : State) :
    exec (.seImm x kk) s = .next (s.skipIf (s.getV x == kk)) := rfl

theorem exec_sneImm (x : RegIdx) (kk : Byte) (s : State) :
    exec (.sneImm x kk) s = .next (s.skipIf (s.getV x != kk)) := rfl

theorem exec_seReg (x y : RegIdx) (s : State) :
    exec (.seReg x y) s = .next (s.skipIf (s.getV x == s.getV y)) := rfl

theorem exec_sneReg (x y : RegIdx) (s : State) :
    exec (.sneReg x y) s = .next (s.skipIf (s.getV x != s.getV y)) := rfl

/-- An instruction that is a skip on `c` goes on at A + 4 or A + 2 as the proposition `P` that `c` tests says, and changes
nothing else (40_engine.md R94). -/
theorem skips_of_exec_eq {i : Instr} {s : State} {c : Bool} {P : Prop} [Decidable P]
    (meaning : exec i s = .next (s.skipIf c)) (tests : c = true ↔ P) :
    ∃ t, exec i s = .next t ∧ t.pc.toNat = (s.pc.toNat + if P then 4 else 2) % 65536 ∧ OnlyChanges [] [] s t := by
  have pc : (s.skipIf c).pc.toNat = (s.pc.toNat + if P then 4 else 2) % 65536 := by
    simp only [State.skipIf_pc_toNat, tests]
  exact ⟨_, meaning, pc, OnlyChanges.skipIf s c⟩

/-- Settles O34: both are skips, on the equality of Vx and kk and on its negation. -/
theorem immediateSkipsCompareTheRegister : Obligations.ImmediateSkipsCompareTheRegister := by
  intro x kk s
  exact ⟨encodes_seImm x kk, encodes_sneImm x kk,
    skips_of_exec_eq (exec_seImm x kk s) beq_iff_eq, skips_of_exec_eq (exec_sneImm x kk s) bne_iff_ne⟩

/-- Settles O35: both are skips, on the equality of Vx and Vy and on its negation. -/
theorem registerSkipsCompareTwoRegisters : Obligations.RegisterSkipsCompareTwoRegisters := by
  intro x y s
  exact ⟨encodes_seReg x y, encodes_sneReg x y,
    skips_of_exec_eq (exec_seReg x y s) beq_iff_eq, skips_of_exec_eq (exec_sneReg x y s) bne_iff_ne⟩

end Sys2Proof.Machine
end

section
/-!
PROOFS. Arithmetic and logic (spec/43_alu.md): the words of the two loads, and what an instruction that writes one register
leaves.
-/
namespace Sys2Proof.Machine

theorem encodes_ldImm (x : RegIdx) (kk : Byte) : Encodes (.ldImm x kk) 0xF000#16 0x6000#16 :=
  encodes_row (Laws.StandsInItsRow.ldImm x kk) (by simp [encodeWord, decodeWord])

theorem encodes_ldReg (x y : RegIdx) : Encodes (.ldReg x y) 0xF00F#16 0x8000#16 :=
  encodes_row (Laws.StandsInItsRow.ldReg x y) (by simp [encodeWord, decodeWord, decodeGroup8])

theorem exec_ldImm (x : RegIdx) (kk : Byte) (s : State) : exec (.ldImm x kk) s = .next (s.advance.setV x kk) := rfl

theorem exec_ldReg (x y : RegIdx) (s : State) : exec (.ldReg x y) s = .next (s.advance.setV x (s.getV y)) := rfl

/-- An instruction that writes `b` to Vx after the fetch advance goes on at A + 2, and changes nothing else; x = F is no
exception, since no flag is written. -/
theorem writes_register_of_exec_eq {i : Instr} {s : State} {x : RegIdx} {b : Byte}
    (meaning : exec i s = .next (s.advance.setV x b)) :
    ∃ t, exec i s = .next t ∧ t.getV x = b ∧ t.pc = s.pc + 2 ∧ OnlyChanges [] [x] s t := by
  have result : (s.advance.setV x b).getV x = b := s.advance.setV_getV_same x b
  have pc : (s.advance.setV x b).pc = s.pc + 2 := by simp
  exact ⟨_, meaning, result, pc, OnlyChanges.after_advance s (OnlyChanges.setV s.advance x b)⟩

/-- Settles O37: both are one register write, of kk and of Vy as the cycle found it. -/
theorem loadsSetTheRegister : Obligations.LoadsSetTheRegister := by
  intro x y kk s
  exact ⟨encodes_ldImm x kk, encodes_ldReg x y,
    writes_register_of_exec_eq (exec_ldImm x kk s), writes_register_of_exec_eq (exec_ldReg x y s)⟩

end Sys2Proof.Machine
end

section
/-!
PROOFS. Index register (spec/44_index_memory.md): the word of Annn and the state it leaves.
-/
namespace Sys2Proof.Machine

/-- The row of Annn in the opcode map. -/
theorem encodes_ldI (nnn : Addr) : Encodes (.ldI nnn) 0xF000#16 0xA000#16 :=
  encodes_row (Laws.StandsInItsRow.ldI nnn) (by simp [encodeWord, decodeWord])

/-- The meaning of Annn: the fetch advance, then the address field written to I at I's width. -/
theorem exec_ldI (nnn : Addr) (s : State) : exec (.ldI nnn) s = .next (s.advance.setI (zextAddr nnn)) := rfl

/-- An instruction that writes `a` to I after the fetch advance goes on at A + 2, and changes nothing else. -/
theorem writes_index_of_exec_eq {i : Instr} {s : State} {a : Word} (meaning : exec i s = .next (s.advance.setI a)) :
    ∃ t, exec i s = .next t ∧ t.i = a ∧ t.pc = s.pc + 2 ∧ OnlyChanges [.index] [] s t := by
  have frame : OnlyChanges [.index] [] s (s.advance.setI a) :=
    OnlyChanges.after_advance s (OnlyChanges.setI s.advance a)
  exact ⟨_, meaning, by simp, by simp, frame⟩

/-- Settles O44: Annn is one write of I, of the address field, whose value widening keeps. -/
theorem loadIndexSetsTheAddress : Obligations.LoadIndexSetsTheAddress := by
  intro nnn s
  obtain ⟨t, meaning, index, pc, frame⟩ := writes_index_of_exec_eq (exec_ldI nnn s)
  have address : t.i.toNat = nnn.toNat := by rw [index, zextAddr_toNat]
  exact ⟨encodes_ldI nnn, t, meaning, address, pc, frame⟩

end Sys2Proof.Machine
end

section
/-!
PROOFS. Timers (spec/45_timers_keys.md): the words of Fx07 and Fx18, the states they leave, and the sound output on ST.
-/
namespace Sys2Proof.Machine

theorem encodes_ldVxDt (x : RegIdx) : Encodes (.ldVxDt x) 0xF0FF#16 0xF007#16 :=
  encodes_row (Laws.StandsInItsRow.ldVxDt x) (by simp [encodeWord, decodeWord, decodeGroupF])

theorem encodes_ldStVx (x : RegIdx) : Encodes (.ldStVx x) 0xF0FF#16 0xF018#16 :=
  encodes_row (Laws.StandsInItsRow.ldStVx x) (by simp [encodeWord, decodeWord, decodeGroupF])

theorem exec_ldVxDt (x : RegIdx) (s : State) : exec (.ldVxDt x) s = .next (s.advance.setV x s.dt) := rfl

theorem exec_ldStVx (x : RegIdx) (s : State) : exec (.ldStVx x) s = .next (s.advance.setSt (s.getV x)) := rfl

/-- The sound output, as a proposition on ST (45_timers_keys.md R163). -/
theorem State.soundOn_iff (s : State) : s.soundOn = true ↔ s.st ≠ 0 := bne_iff_ne

theorem State.soundOn_eq_false_iff (s : State) : s.soundOn = false ↔ s.st = 0 := bne_eq_false_iff_eq

/-- A tone of one tick: at a running machine the tick takes ST from 1 to 0 (60_exceptions.md R188). -/
theorem State.tick_ends_sound {s : State} (running : s.fsr.halted = false) (one : s.st = 1) : s.tick.soundOn = false := by
  have silent : s.tick.st = 0 := by
    rw [State.tick_running s running, State.setSt_st, one]
    rfl
  exact s.tick.soundOn_eq_false_iff.mpr silent

/-- Settles O51: Fx07 is one register write, of DT as the cycle found it. -/
theorem readDelayTimer : Obligations.ReadDelayTimer := by
  intro x s
  exact ⟨encodes_ldVxDt x, writes_register_of_exec_eq (exec_ldVxDt x s)⟩

/-- Settles O53: Fx18 is one write of ST, and leaves FSR alone, so the sound output and the next tick follow from ST = Vx. -/
theorem setSoundTimer : Obligations.SetSoundTimer := by
  intro x s
  have frame : OnlyChanges [.sound] [] s (s.advance.setSt (s.getV x)) :=
    OnlyChanges.after_advance s (OnlyChanges.setSt s.advance _)
  have sound : (s.advance.setSt (s.getV x)).soundOn = true ↔ s.getV x ≠ 0 := State.soundOn_iff _
  refine ⟨encodes_ldStVx x, _, exec_ldStVx x s, by simp, by simp, frame, sound, ?_⟩
  intro running one
  have active : s.getV x ≠ 0 := by rw [one]; decide
  exact ⟨sound.mpr active, State.tick_ends_sound running one⟩

end Sys2Proof.Machine
end

section
/-!
PROOFS. Display (spec/46_display.md): the word of 00E0 and the state it leaves.
-/
namespace Sys2Proof.Machine

/-- The row of 00E0 in the opcode map: the word has no operand field. -/
theorem encodes_cls : Encodes .cls 0xFFFF#16 0x00E0#16 :=
  encodes_row Laws.StandsInItsRow.cls (by decide)

/-- The meaning of 00E0: the fetch advance, then the blank framebuffer written to FB. -/
theorem exec_cls (s : State) : exec .cls s = .next (s.advance.setFb FrameBuffer.blank) := rfl

/-- Every pixel of a state whose framebuffer was made blank is off. -/
theorem State.setFb_blank_pixel (s : State) (x y : Nat) : (s.setFb FrameBuffer.blank).pixel x y = false := by
  rw [State.setFb_pixel, FrameBuffer.blank_pixel]

/-- Settles O57: 00E0 is one write of FB, of the blank framebuffer, and no flag is written. -/
theorem clearTurnsEveryPixelOff : Obligations.ClearTurnsEveryPixelOff := by
  intro s
  have frame : OnlyChanges [.display] [] s (s.advance.setFb FrameBuffer.blank) :=
    OnlyChanges.after_advance s (OnlyChanges.setFb s.advance _)
  exact ⟨encodes_cls, _, exec_cls s, s.advance.setFb_blank_pixel, by simp, frame⟩

end Sys2Proof.Machine
end

section
/-!
PROOFS. The external timer clock (spec/60_exceptions.md R188): what a tick writes at a running machine.
-/
namespace Sys2Proof.Machine

/-- The two timer writes of a tick change nothing else. -/
theorem OnlyChanges.setTimers (s : State) (d n : Byte) :
    OnlyChanges [.delay, .sound] [] s ((s.setDt d).setSt n) :=
  ((OnlyChanges.setDt s d).widen (by simp) (by simp)).trans
    ((OnlyChanges.setSt (s.setDt d) n).widen (by simp) (by simp))

/-- Settles O15: at a running machine a tick is one write of DT and one of ST, each of its timer's decrement that stops at 0. -/
theorem tickCountsBothTimersDown : Obligations.TickCountsBothTimersDown := by
  intro s running
  rw [State.tick_running s running]
  have delay : ((s.setDt (countDown s.dt)).setSt (countDown s.st)).dt.toNat = s.dt.toNat - 1 := by
    rw [State.setSt_dt, State.setDt_dt, countDown_toNat]
  have sound : ((s.setDt (countDown s.dt)).setSt (countDown s.st)).st.toNat = s.st.toNat - 1 := by
    rw [State.setSt_st, countDown_toNat]
  exact ⟨delay, sound, by simp, OnlyChanges.setTimers s _ _⟩

end Sys2Proof.Machine
end

section
/-!
PROOFS. Encoding (spec/30_encoding.md): encoder and decoder are inverse to each other, the decoder selects the row of the opcode
map, and the words it refuses are those of the table under R80.
-/
namespace Sys2Proof.Machine

/-! ### Decoding an instruction's word -/

/-- The word of a well-formed instruction decodes to it: the group nibble selects the instruction or its group, a nibble or byte
of the format selects within the group, and the other fields are the operands. -/
theorem decodeWord_encodeWord {i : Instr} (h : i.WellFormed) : decodeWord (encodeWord i) = .ok i := by
  cases i with
  | cls | ret => decide
  | jp | call | ldI | jpV0 => simp [encodeWord, decodeWord]
  | seImm | sneImm | ldImm | addImm | rnd => simp [encodeWord, decodeWord]
  | seReg | sneReg => simp [encodeWord, decodeWord, decodeNibbleZero]
  | ldReg | orReg | andReg | xorReg | addReg | subReg | shr | subnReg | shl =>
    simp [encodeWord, decodeWord, decodeGroup8]
  | drw x y n =>
    have small : n < 16 := of_decide_eq_true h
    simp [encodeWord, decodeWord, Nat.mod_eq_of_lt small]
  | skp | sknp => simp [encodeWord, decodeWord, decodeGroupE]
  | ldVxDt | ldVxK | ldDtVx | ldStVx | addI | ldF | ldB | storeRegs | loadRegs =>
    simp [encodeWord, decodeWord, decodeGroupF]

/-- Settles O2: the bytes of an instruction are those of its word, which decodes to it. -/
theorem decodeOfEncodeIsTheInstruction : Obligations.DecodeOfEncodeIsTheInstruction := by
  intro i rest wellFormed
  exact decode_bytesOfWord (encodeWord i) rest i (decodeWord_encodeWord wellFormed)

/-! ### The word of a decoded instruction -/

/-- The instruction is well-formed and `w` is its word. -/
def IsWordOf (w : Word) (i : Instr) : Prop := i.WellFormed ∧ encodeWord i = w

theorem word_of_nnn {w : Word} {f : BitVec 4} (h : opId w = f) : formatNNN f (opNNN w) = w := by
  rw [← h]; exact formatNNN_of_fields w

theorem word_of_xkk {w : Word} {f : BitVec 4} (h : opId w = f) : formatXKK f (opX w) (opKK w) = w := by
  rw [← h]; exact formatXKK_of_fields w

theorem word_of_xs {w : Word} {f : BitVec 4} {kk : Byte} (h : opId w = f) (hk : opKK w = kk) :
    formatXKK f (opX w) kk = w := by
  rw [← hk]; exact word_of_xkk h

theorem word_of_xy {w : Word} {f n : BitVec 4} (h : opId w = f) (hn : opN w = n) :
    formatXYN f (opX w) (opY w) n = w := by
  rw [← h, ← hn]; exact formatXYN_of_fields w

theorem isWordOf_drw {w : Word} (h : opId w = 0xD#4) : IsWordOf w (.drw (opX w) (opY w) (opN w).toNat) := by
  have rows : opN w = BitVec.ofNat 4 (opN w).toNat := by simp
  exact ⟨decide_eq_true (opN w).isLt, word_of_xy h rows⟩

theorem decodeGroup0_ok {w : Word} {i : Instr} (h : decodeGroup0 w = .ok i) : IsWordOf w i := by
  unfold decodeGroup0 at h
  split at h
  · next e => cases h; exact ⟨rfl, e.symm⟩
  · split at h
    · next e => cases h; exact ⟨rfl, e.symm⟩
    · cases h

theorem decodeNibbleZero_ok {w : Word} {i j : Instr} (h : decodeNibbleZero j w = .ok i) : i = j ∧ opN w = 0 := by
  unfold decodeNibbleZero at h
  split at h
  · next e => cases h; exact ⟨rfl, e⟩
  · cases h

theorem decodeGroup8_ok {w : Word} {i : Instr} (group : opId w = 0x8#4) (h : decodeGroup8 w = .ok i) : IsWordOf w i := by
  unfold decodeGroup8 at h
  split at h
  case h_10 => cases h
  all_goals next e => cases h; exact ⟨rfl, word_of_xy group e⟩

theorem decodeGroupE_ok {w : Word} {i : Instr} (group : opId w = 0xE#4) (h : decodeGroupE w = .ok i) : IsWordOf w i := by
  unfold decodeGroupE at h
  split at h
  case h_3 => cases h
  all_goals next e => cases h; exact ⟨rfl, word_of_xs group e⟩

theorem decodeGroupF_ok {w : Word} {i : Instr} (group : opId w = 0xF#4) (h : decodeGroupF w = .ok i) : IsWordOf w i := by
  unfold decodeGroupF at h
  split at h
  case h_10 => cases h
  all_goals next e => cases h; exact ⟨rfl, word_of_xs group e⟩

/-- A word decodes only to an instruction whose word it is: the fields that selected the instruction are the constants of its
format, and the operands are the other fields. -/
theorem decodeWord_ok {w : Word} {i : Instr} (h : decodeWord w = .ok i) : IsWordOf w i := by
  unfold decodeWord at h
  split at h -- the case `h_<k + 1>` is the one of group nibble k
  case h_1 => exact decodeGroup0_ok h
  case h_6 e => obtain ⟨rfl, n⟩ := decodeNibbleZero_ok h; exact ⟨rfl, word_of_xy e n⟩
  case h_9 e => exact decodeGroup8_ok e h
  case h_10 e => obtain ⟨rfl, n⟩ := decodeNibbleZero_ok h; exact ⟨rfl, word_of_xy e n⟩
  case h_14 e => cases h; exact isWordOf_drw e
  case h_15 e => exact decodeGroupE_ok e h
  case h_16 e => exact decodeGroupF_ok e h
  case h_17 => cases h
  case h_2 e | h_3 e | h_11 e | h_12 e => cases h; exact ⟨rfl, word_of_nnn e⟩
  case h_4 e | h_5 e | h_7 e | h_8 e | h_13 e => cases h; exact ⟨rfl, word_of_xkk e⟩

/-- Settles O3: that is what decoding a word to an instruction says of both. -/
theorem everyDecodedWordIsItsInstructionsWord : Obligations.EveryDecodedWordIsItsInstructionsWord :=
  fun _ _ decoded => decodeWord_ok decoded

/-! ### The refused words -/

theorem decodeGroup0_eq_error (w : Word) (e : DecodeError) :
    decodeGroup0 w = .error e ↔ e = .unknownInstruction w ∧ w ≠ 0x00E0#16 ∧ w ≠ 0x00EE#16 := by
  unfold decodeGroup0
  split
  · next h => simp [h]
  · next h =>
    split
    · next h' => simp [h']
    · next h' => simp [h, h', eq_comm]

theorem decodeNibbleZero_eq_error (j : Instr) (w : Word) (e : DecodeError) :
    decodeNibbleZero j w = .error e ↔ e = .unknownInstruction w ∧ opN w ≠ 0x0#4 := by
  unfold decodeNibbleZero
  split
  · next h => simp [h]
  · next h => simp [h, eq_comm]

/-- The seven nibbles group 0x8 leaves free are those other than its nine. -/
theorem free_nibble_of_group8 : ∀ n : BitVec 4, n ≠ 0x0 → n ≠ 0x1 → n ≠ 0x2 → n ≠ 0x3 → n ≠ 0x4 → n ≠ 0x5 → n ≠ 0x6 →
    n ≠ 0x7 → n ≠ 0xE → n ∈ [0x8#4, 0x9#4, 0xA#4, 0xB#4, 0xC#4, 0xD#4, 0xF#4] := by decide

theorem decodeGroup8_eq_error (w : Word) (e : DecodeError) :
    decodeGroup8 w = .error e ↔
      e = .unknownInstruction w ∧ opN w ∈ [0x8#4, 0x9#4, 0xA#4, 0xB#4, 0xC#4, 0xD#4, 0xF#4] := by
  unfold decodeGroup8
  split
  case h_10 h0 h1 h2 h3 h4 h5 h6 h7 hE =>
    have free := free_nibble_of_group8 (opN w) h0 h1 h2 h3 h4 h5 h6 h7 hE
    simp only [Except.error.injEq, free, and_true, eq_comm]
  all_goals next h => simp [h]

theorem decodeGroupE_eq_error (w : Word) (e : DecodeError) :
    decodeGroupE w = .error e ↔ e = .unknownInstruction w ∧ opKK w ∉ [0x9E#8, 0xA1#8] := by
  unfold decodeGroupE
  split
  case h_3 kk skp sknp =>
    have free : opKK w ∉ [0x9E#8, 0xA1#8] := by
      simp only [List.mem_cons, List.not_mem_nil, or_false, not_or]
      exact ⟨skp, sknp⟩
    simp only [Except.error.injEq, free, not_false_eq_true, and_true, eq_comm]
  all_goals next h => simp [h]

theorem decodeGroupF_eq_error (w : Word) (e : DecodeError) :
    decodeGroupF w = .error e ↔ e = .unknownInstruction w ∧
      opKK w ∉ [0x07#8, 0x0A#8, 0x15#8, 0x18#8, 0x1E#8, 0x29#8, 0x33#8, 0x55#8, 0x65#8] := by
  unfold decodeGroupF
  split
  case h_10 ldVxDt ldVxK ldDtVx ldStVx addI ldF ldB storeRegs loadRegs =>
    have free : opKK w ∉ [0x07#8, 0x0A#8, 0x15#8, 0x18#8, 0x1E#8, 0x29#8, 0x33#8, 0x55#8, 0x65#8] := by
      simp only [List.mem_cons, List.not_mem_nil, or_false, not_or]
      exact ⟨ldVxDt, ldVxK, ldDtVx, ldStVx, addI, ldF, ldB, storeRegs, loadRegs⟩
    simp only [Except.error.injEq, free, not_false_eq_true, and_true, eq_comm]
  all_goals next h => simp [h]

/-- The dispatch on the group nibble leaves no value out. -/
theorem nibble_cases : ∀ f : BitVec 4, f = 0x0 ∨ f = 0x1 ∨ f = 0x2 ∨ f = 0x3 ∨ f = 0x4 ∨ f = 0x5 ∨ f = 0x6 ∨ f = 0x7 ∨
    f = 0x8 ∨ f = 0x9 ∨ f = 0xA ∨ f = 0xB ∨ f = 0xC ∨ f = 0xD ∨ f = 0xE ∨ f = 0xF := by decide

/-- The decoder refuses exactly the words of the table under R80, and names the word. -/
theorem decodeWord_eq_error (w : Word) (e : DecodeError) :
    decodeWord w = .error e ↔ e = .unknownInstruction w ∧ IllegalWord w := by
  unfold decodeWord
  split -- the case `h_<k + 1>` is the one of group nibble k
  case h_1 g => simp [decodeGroup0_eq_error, IllegalWord, g]
  case h_6 g => simp [decodeNibbleZero_eq_error, IllegalWord, g]
  case h_9 g => simp [decodeGroup8_eq_error, IllegalWord, g]
  case h_10 g => simp [decodeNibbleZero_eq_error, IllegalWord, g]
  case h_15 g => simp [decodeGroupE_eq_error, IllegalWord, g]
  case h_16 g => simp [decodeGroupF_eq_error, IllegalWord, g]
  case h_17 => have := nibble_cases (opId w); simp_all
  all_goals next g => simp [IllegalWord, g]

/-- Settles O6: a word that is not refused with an error is read as an instruction. -/
theorem exactlyTheIllegalWordsAreRefused : Obligations.ExactlyTheIllegalWordsAreRefused := by
  refine fun w => ⟨fun illegal => (decodeWord_eq_error w _).mpr ⟨rfl, illegal⟩, fun legal => ?_⟩
  cases decoded : decodeWord w with
  | ok i => exact ⟨i, rfl⟩
  | error e => exact absurd ((decodeWord_eq_error w e).mp decoded).2 legal

/-- Settles O1. -/
theorem wordsOfTheOpcodeMapDecode : Obligations.WordsOfTheOpcodeMapDecode := by
  unfold Obligations.WordsOfTheOpcodeMapDecode
  decide

/-- Settles O5: the group nibble alone selects the check of n. -/
theorem groupsFiveAndNineRequireAZeroNibble : Obligations.GroupsFiveAndNineRequireAZeroNibble := by
  intro w
  constructor
  · intro group; simp [decodeWord, group, decodeNibbleZero]
  · intro group; simp [decodeWord, group, decodeNibbleZero]

/-! ### The rows of the opcode map -/

/-- The word of every instruction selects the instruction's row. -/
theorem row_selects_encodeWord (i : Instr) : i.row.selects (encodeWord i) = true := by
  cases i with
  | cls => exact Laws.StandsInItsRow.cls
  | ret => exact Laws.StandsInItsRow.ret
  | jp => exact Laws.StandsInItsRow.jp _
  | call => exact Laws.StandsInItsRow.call _
  | seImm => exact Laws.StandsInItsRow.seImm _ _
  | sneImm => exact Laws.StandsInItsRow.sneImm _ _
  | seReg => exact Laws.StandsInItsRow.seReg _ _
  | ldImm => exact Laws.StandsInItsRow.ldImm _ _
  | addImm => exact Laws.StandsInItsRow.addImm _ _
  | ldReg => exact Laws.StandsInItsRow.ldReg _ _
  | orReg => exact Laws.StandsInItsRow.orReg _ _
  | andReg => exact Laws.StandsInItsRow.andReg _ _
  | xorReg => exact Laws.StandsInItsRow.xorReg _ _
  | addReg => exact Laws.StandsInItsRow.addReg _ _
  | subReg => exact Laws.StandsInItsRow.subReg _ _
  | shr => exact Laws.StandsInItsRow.shr _ _
  | subnReg => exact Laws.StandsInItsRow.subnReg _ _
  | shl => exact Laws.StandsInItsRow.shl _ _
  | sneReg => exact Laws.StandsInItsRow.sneReg _ _
  | ldI => exact Laws.StandsInItsRow.ldI _
  | jpV0 => exact Laws.StandsInItsRow.jpV0 _
  | rnd => exact Laws.StandsInItsRow.rnd _ _
  | drw => exact Laws.StandsInItsRow.drw _ _ _
  | skp => exact Laws.StandsInItsRow.skp _
  | sknp => exact Laws.StandsInItsRow.sknp _
  | ldVxDt => exact Laws.StandsInItsRow.ldVxDt _
  | ldVxK => exact Laws.StandsInItsRow.ldVxK _
  | ldDtVx => exact Laws.StandsInItsRow.ldDtVx _
  | ldStVx => exact Laws.StandsInItsRow.ldStVx _
  | addI => exact Laws.StandsInItsRow.addI _
  | ldF => exact Laws.StandsInItsRow.ldF _
  | ldB => exact Laws.StandsInItsRow.ldB _
  | storeRegs => exact Laws.StandsInItsRow.storeRegs _
  | loadRegs => exact Laws.StandsInItsRow.loadRegs _

/-- Every row of the map is the row of an instruction. -/
theorem exists_row_of_mem {r : OpcodeRow} (h : r ∈ opcodeMap) : ∃ i : Instr, i.row = r := by
  have rows : opcodeMap = [Instr.cls, .ret, .jp 0, .call 0, .seImm 0 0, .sneImm 0 0, .seReg 0 0, .ldImm 0 0, .addImm 0 0,
      .ldReg 0 0, .orReg 0 0, .andReg 0 0, .xorReg 0 0, .addReg 0 0, .subReg 0 0, .shr 0 0, .subnReg 0 0, .shl 0 0,
      .sneReg 0 0, .ldI 0, .jpV0 0, .rnd 0 0, .drw 0 0 0, .skp 0, .sknp 0, .ldVxDt 0, .ldVxK 0, .ldDtVx 0, .ldStVx 0,
      .addI 0, .ldF 0, .ldB 0, .storeRegs 0, .loadRegs 0].map Instr.row := rfl
  rw [rows, List.mem_map] at h
  obtain ⟨i, -, row⟩ := h
  exact ⟨i, row⟩

/-- Two different rows differ in a digit both of them check. -/
theorem opcodeMap_separated : ∀ r ∈ opcodeMap, ∀ r' ∈ opcodeMap, r.pattern &&& r'.mask = r'.pattern &&& r.mask → r = r' := by
  decide

/-- No word selects two rows. -/
theorem selects_unique {w : Word} {r r' : OpcodeRow} (hr : r ∈ opcodeMap) (hr' : r' ∈ opcodeMap)
    (h : r.selects w = true) (h' : r'.selects w = true) : r = r' := by
  have e : w &&& r.mask = r.pattern := beq_iff_eq.mp h
  have e' : w &&& r'.mask = r'.pattern := beq_iff_eq.mp h'
  refine opcodeMap_separated r hr r' hr' ?_
  rw [← e, ← e', BitVec.and_assoc, BitVec.and_assoc, BitVec.and_comm r.mask]

/-! A word that selects a row is its fields under the row's format, with the row's constants in the digits the mask checks. -/

theorem group_of_selects {w p : Word} {f : BitVec 4} (h : (w &&& 0xF000#16 == p) = true) (hp : formatNNN f 0 = p) :
    opId w = f := by
  have e : formatNNN (opId w) 0 = formatNNN f 0 := by rw [← masked_F000, beq_iff_eq.mp h, hp]
  simpa using congrArg opId e

theorem word_of_selects_nnn {w p : Word} {f : BitVec 4} (h : (w &&& 0xF000#16 == p) = true) (hp : formatNNN f 0 = p) :
    formatNNN f (opNNN w) = w := word_of_nnn (group_of_selects h hp)

theorem word_of_selects_xkk {w p : Word} {f : BitVec 4} (h : (w &&& 0xF000#16 == p) = true) (hp : formatNNN f 0 = p) :
    formatXKK f (opX w) (opKK w) = w := word_of_xkk (group_of_selects h hp)

theorem word_of_selects_xy {w p : Word} {f n : BitVec 4} (h : (w &&& 0xF00F#16 == p) = true)
    (hp : formatXYN f 0 0 n = p) : formatXYN f (opX w) (opY w) n = w := by
  have e : formatXYN (opId w) 0 0 (opN w) = formatXYN f 0 0 n := by rw [← masked_F00F, beq_iff_eq.mp h, hp]
  exact word_of_xy (by simpa using congrArg opId e) (by simpa using congrArg opN e)

theorem word_of_selects_xs {w p : Word} {f : BitVec 4} {kk : Byte} (h : (w &&& 0xF0FF#16 == p) = true)
    (hp : formatXKK f 0 kk = p) : formatXKK f (opX w) kk = w := by
  have e : formatXKK (opId w) 0 (opKK w) = formatXKK f 0 kk := by rw [← masked_F0FF, beq_iff_eq.mp h, hp]
  exact word_of_xs (by simpa using congrArg opId e) (by simpa using congrArg opKK e)

theorem word_of_selects_FFFF {w p : Word} (h : (w &&& 0xFFFF#16 == p) = true) : p = w := by
  rw [← beq_iff_eq.mp h, masked_FFFF]

/-- A word that selects an instruction's row is the word of an instruction of that row, whose operands are its own fields. -/
theorem isWordOf_of_selects {i : Instr} {w : Word} (h : i.row.selects w = true) : ∃ j, IsWordOf w j ∧ j.row = i.row := by
  cases i with
  | cls => exact ⟨.cls, ⟨rfl, word_of_selects_FFFF h⟩, rfl⟩
  | ret => exact ⟨.ret, ⟨rfl, word_of_selects_FFFF h⟩, rfl⟩
  | jp => exact ⟨.jp (opNNN w), ⟨rfl, word_of_selects_nnn h rfl⟩, rfl⟩
  | call => exact ⟨.call (opNNN w), ⟨rfl, word_of_selects_nnn h rfl⟩, rfl⟩
  | seImm => exact ⟨.seImm (opX w) (opKK w), ⟨rfl, word_of_selects_xkk h rfl⟩, rfl⟩
  | sneImm => exact ⟨.sneImm (opX w) (opKK w), ⟨rfl, word_of_selects_xkk h rfl⟩, rfl⟩
  | seReg => exact ⟨.seReg (opX w) (opY w), ⟨rfl, word_of_selects_xy h rfl⟩, rfl⟩
  | ldImm => exact ⟨.ldImm (opX w) (opKK w), ⟨rfl, word_of_selects_xkk h rfl⟩, rfl⟩
  | addImm => exact ⟨.addImm (opX w) (opKK w), ⟨rfl, word_of_selects_xkk h rfl⟩, rfl⟩
  | ldReg => exact ⟨.ldReg (opX w) (opY w), ⟨rfl, word_of_selects_xy h rfl⟩, rfl⟩
  | orReg => exact ⟨.orReg (opX w) (opY w), ⟨rfl, word_of_selects_xy h rfl⟩, rfl⟩
  | andReg => exact ⟨.andReg (opX w) (opY w), ⟨rfl, word_of_selects_xy h rfl⟩, rfl⟩
  | xorReg => exact ⟨.xorReg (opX w) (opY w), ⟨rfl, word_of_selects_xy h rfl⟩, rfl⟩
  | addReg => exact ⟨.addReg (opX w) (opY w), ⟨rfl, word_of_selects_xy h rfl⟩, rfl⟩
  | subReg => exact ⟨.subReg (opX w) (opY w), ⟨rfl, word_of_selects_xy h rfl⟩, rfl⟩
  | shr => exact ⟨.shr (opX w) (opY w), ⟨rfl, word_of_selects_xy h rfl⟩, rfl⟩
  | subnReg => exact ⟨.subnReg (opX w) (opY w), ⟨rfl, word_of_selects_xy h rfl⟩, rfl⟩
  | shl => exact ⟨.shl (opX w) (opY w), ⟨rfl, word_of_selects_xy h rfl⟩, rfl⟩
  | sneReg => exact ⟨.sneReg (opX w) (opY w), ⟨rfl, word_of_selects_xy h rfl⟩, rfl⟩
  | ldI => exact ⟨.ldI (opNNN w), ⟨rfl, word_of_selects_nnn h rfl⟩, rfl⟩
  | jpV0 => exact ⟨.jpV0 (opNNN w), ⟨rfl, word_of_selects_nnn h rfl⟩, rfl⟩
  | rnd => exact ⟨.rnd (opX w) (opKK w), ⟨rfl, word_of_selects_xkk h rfl⟩, rfl⟩
  | drw => exact ⟨.drw (opX w) (opY w) (opN w).toNat, isWordOf_drw (group_of_selects h rfl), rfl⟩
  | skp => exact ⟨.skp (opX w), ⟨rfl, word_of_selects_xs h rfl⟩, rfl⟩
  | sknp => exact ⟨.sknp (opX w), ⟨rfl, word_of_selects_xs h rfl⟩, rfl⟩
  | ldVxDt => exact ⟨.ldVxDt (opX w), ⟨rfl, word_of_selects_xs h rfl⟩, rfl⟩
  | ldVxK => exact ⟨.ldVxK (opX w), ⟨rfl, word_of_selects_xs h rfl⟩, rfl⟩
  | ldDtVx => exact ⟨.ldDtVx (opX w), ⟨rfl, word_of_selects_xs h rfl⟩, rfl⟩
  | ldStVx => exact ⟨.ldStVx (opX w), ⟨rfl, word_of_selects_xs h rfl⟩, rfl⟩
  | addI => exact ⟨.addI (opX w), ⟨rfl, word_of_selects_xs h rfl⟩, rfl⟩
  | ldF => exact ⟨.ldF (opX w), ⟨rfl, word_of_selects_xs h rfl⟩, rfl⟩
  | ldB => exact ⟨.ldB (opX w), ⟨rfl, word_of_selects_xs h rfl⟩, rfl⟩
  | storeRegs => exact ⟨.storeRegs (opX w), ⟨rfl, word_of_selects_xs h rfl⟩, rfl⟩
  | loadRegs => exact ⟨.loadRegs (opX w), ⟨rfl, word_of_selects_xs h rfl⟩, rfl⟩

/-- Settles O4: the word of an instruction selects the instruction's row, and a word that selects a row is the word of an
instruction of the row, to which it then decodes; two rows differ in a digit both check. -/
theorem decoderSelectsTheRowOfTheOpcodeMap : Obligations.DecoderSelectsTheRowOfTheOpcodeMap := by
  refine ⟨fun w r hr => ⟨fun h => ?_, ?_⟩, fun w r hr r' hr' h h' => selects_unique hr hr' h h'⟩
  · obtain ⟨i, rfl⟩ := exists_row_of_mem hr
    obtain ⟨j, ⟨wellFormed, word⟩, row⟩ := isWordOf_of_selects h
    exact ⟨j, word ▸ decodeWord_encodeWord wellFormed, row⟩
  · rintro ⟨i, decoded, rfl⟩
    rw [← (decodeWord_ok decoded).2]
    exact row_selects_encodeWord i

end Sys2Proof.Machine
end

section
/-!
PROOFS. Reset (spec/70_reset_and_hazards.md R211) and memory (spec/20_memory.md R51, R52): what reset memory reads as, the write,
and the canonical form.
-/
namespace Sys2Proof.Machine

/-- What reset leaves past the font is 0x00 (R31, R59). -/
theorem resetByte_eq (k : Nat) : resetByte k = if k < 80 then fontTable.getD k 0 else 0 := by
  by_cases h : k < 80
  · simp [resetByte, h]
  · have past : fontTable.length ≤ k := by simpa [fontTable, fontLower, fontUpper] using h
    simp [resetByte, h, List.getElem?_eq_none past]

/-- Settles O7. -/
theorem resetLeavesTheStatedValues : Obligations.ResetLeavesTheStatedValues := by
  have memory (a : Word) :
      State.reset.read a = if a.toNat % 4096 < 80 then fontTable.getD (a.toNat % 4096) 0 else 0 := by
    rw [← resetByte_eq, ← maskAddr_eq]; rfl
  have pixels (x y : Nat) : State.reset.pixel x y = false := FrameBuffer.blank_pixel x y
  exact ⟨by decide, rfl, rfl, by decide, rfl, rfl, rfl, pixels, by decide, memory, rfl, rfl, rfl⟩

/-- Settles O8. -/
theorem writeChangesOnlyTheMaskedAddress : Obligations.WriteChangesOnlyTheMaskedAddress := by
  intro m a b v
  rw [Memory.write_read, maskAddr_eq, maskAddr_eq]

/-! ### The canonical form -/

theorem Memory.lookup_of_mem {m : Memory} (rising : m.Pairwise (fun c d => c.1 < d.1)) {c : Host.Cell} (h : c ∈ m) :
    m.lookup c.1 = c.2 := by
  induction m with
  | nil => cases h
  | cons d rest ih =>
    obtain ⟨below, rising'⟩ := List.pairwise_cons.mp rising
    rcases List.mem_cons.mp h with rfl | h
    · simp [Memory.lookup]
    · simp [Memory.lookup, (below c h).ne, ih rising' h]

theorem Memory.mem_of_lookup {m : Memory} {k : Nat} (h : m.lookup k ≠ resetByte k) : (k, m.lookup k) ∈ m := by
  induction m with
  | nil => exact absurd rfl h
  | cons d rest ih =>
    by_cases hd : d.1 = k
    · simp [Memory.lookup, ← hd]
    · simp only [Memory.lookup, hd, if_false] at h ⊢
      exact List.mem_cons_of_mem _ (ih h)

/-- A canonical memory lists exactly the bytes that differ from what reset leaves. -/
theorem Memory.mem_iff_lookup {m : Memory} (h : m.wf) (c : Host.Cell) :
    c ∈ m ↔ m.lookup c.1 = c.2 ∧ c.2 ≠ resetByte c.1 := by
  constructor
  · exact fun hc => ⟨Memory.lookup_of_mem h.1 hc, (h.2 c hc).2⟩
  · rintro ⟨value, differs⟩
    have listed := Memory.mem_of_lookup (m := m) (k := c.1) (value ▸ differs)
    rwa [value] at listed

/-- Every index of M is the masked form of an address, and a canonical memory lists no index beyond M. -/
theorem Memory.lookup_eq_of_read_eq {m m' : Memory} (h : m.wf) (h' : m'.wf) (alike : ∀ a, m.read a = m'.read a) (k : Nat) :
    m.lookup k = m'.lookup k := by
  by_cases hk : k < 4096
  · have address : maskAddr (BitVec.ofNat 16 k) = k := by
      rw [maskAddr_eq, BitVec.toNat_ofNat]; omega
    have read := alike (BitVec.ofNat 16 k)
    rwa [Memory.read, Memory.read, address] at read
  · have beyond {n : Memory} (hn : n.wf) : ∀ c ∈ n, c.1 ≠ k := fun c hc e => hk (e ▸ (hn.2 c hc).1)
    rw [Memory.lookup_of_no_key m k (beyond h), Memory.lookup_of_no_key m' k (beyond h')]

/-- Settles O9: the two list the same cells, both in rising order. -/
theorem canonicalMemoriesThatReadAlikeAreEqual : Obligations.CanonicalMemoriesThatReadAlikeAreEqual := by
  intro m m' h h' alike
  have irrefl : Std.Irrefl (fun c d : Host.Cell => c.1 < d.1) := ⟨fun c => Nat.lt_irrefl c.1⟩
  refine List.Pairwise.eq_of_mem_iff h.1 h'.1 fun c => ?_
  rw [Memory.mem_iff_lookup h, Memory.mem_iff_lookup h', Memory.lookup_eq_of_read_eq h h' alike]

end Sys2Proof.Machine
end

section
/-!
PROOFS. Control transfer (spec/41_control_flow.md): JP V0, and CALL and RET with and without an entry to push or pop.
-/
namespace Sys2Proof.Machine

/-- A byte widened to PC's width keeps its value. -/
@[simp] theorem zextByte_toNat (b : Byte) : (zextByte b).toNat = b.toNat :=
  BitVec.toNat_setWidth_of_le (by decide)

theorem exec_jpV0 (nnn : Addr) (s : State) :
    exec (.jpV0 nnn) s = .next (s.advance.setPc (zextAddr nnn + zextByte (s.getV 0))) := rfl

/-- Settles O29: the sum of 12 and 8 bits fits PC. -/
theorem jumpWithOffsetAddsV0 : Obligations.JumpWithOffsetAddsV0 := by
  intro nnn s
  have target : (zextAddr nnn + zextByte (s.getV 0)).toNat = nnn.toNat + (s.getV 0).toNat := by
    have := nnn.isLt
    have := (s.getV 0).isLt
    rw [BitVec.toNat_add, zextAddr_toNat, zextByte_toNat, Nat.mod_eq_of_lt (by omega)]
  exact ⟨_, exec_jpV0 nnn s, target, OnlyChanges.after_advance s (OnlyChanges.setPc s.advance _)⟩

/-! ### The four outcomes of CALL and RET -/

/-- With an entry free, SP is a valid index of the stack. -/
theorem sp_lt_of_ne_full {p : Fin 17} (h : p ≠ 16) : p.val < 16 :=
  Nat.lt_of_le_of_ne (Nat.le_of_lt_succ p.isLt) fun e => h (Fin.ext e)

/-- The state after the push of A + 2 and the jump of a CALL. -/
def State.called (s : State) (nnn : Addr) (h : s.sp.val < 16) : State :=
  State.setPc { s.advance with
    stack := s.stack.set s.sp.val (s.pc + 2) h, sp := ⟨s.sp.val + 1, Nat.succ_lt_succ h⟩ } (zextAddr nnn)

theorem exec_call_free (nnn : Addr) (s : State) (h : s.sp.val < 16) : exec (.call nnn) s = .next (s.called nnn h) := by
  have pushed := (State.push_eq_some s.advance s.advance.pc _).mpr ⟨h, rfl⟩
  simp only [exec, execCall, pushed]
  rfl

theorem exec_call_full (nnn : Addr) (s : State) (h : s.sp.val = 16) :
    exec (.call nnn) s = .next (s.raise .stackOverflow (encodeWord (.call nnn)) s.pc) := by
  have full := (State.push_eq_none s.advance s.advance.pc).mpr h
  simp only [exec, execCall, full]

theorem exec_ret_used (s : State) (h : s.sp.val ≠ 0) :
    ∃ (a : Word) (p : Fin 17), exec .ret s = .next (State.setPc { s.advance with sp := p } a) ∧
      s.stack[s.sp.val - 1]? = some a ∧ p.val + 1 = s.sp.val := by
  have hs := s.sp.isLt
  have inside : s.sp.val - 1 < 16 := by omega
  have popped := (State.pop_eq_some s.advance (s.stack[s.sp.val - 1]) _).mpr
    ⟨h, Vector.getElem?_eq_getElem inside, by simp only [State.advance_sp]; omega, rfl⟩
  refine ⟨s.stack[s.sp.val - 1], ⟨s.sp.val - 1, by omega⟩, ?_, Vector.getElem?_eq_getElem inside, ?_⟩
  · simp only [exec, execRet, popped]
    rfl
  · simp only; omega

theorem exec_ret_empty (s : State) (h : s.sp.val = 0) :
    exec .ret s = .next (s.raise .stackUnderflow (encodeWord .ret) s.pc) := by
  have empty := (State.pop_eq_none s.advance).mpr h
  simp only [exec, execRet, empty]

/-- The stack and SP. -/
theorem OnlyChanges.setStack (s : State) (w : Vector Word 16) (p : Fin 17) :
    OnlyChanges [.stack] [] s { s with stack := w, sp := p } where
  regs _ _ := rfl
  index _ := rfl
  stack n := absurd (by simp) n
  delay _ := rfl
  sound _ := rfl
  display _ _ _ := rfl
  memory _ _ := rfl
  keys := rfl
  fsr := rfl
  schedule := rfl
  cycles := rfl
  rnd := rfl

/-- The stack and SP, then PC. -/
theorem OnlyChanges.setStack_setPc (s : State) (w : Vector Word 16) (p : Fin 17) (a : Word) :
    OnlyChanges [.stack] [] s (State.setPc { s.advance with stack := w, sp := p } a) :=
  OnlyChanges.after_advance s
    ((OnlyChanges.setStack s.advance w p).trans ((OnlyChanges.setPc _ a).widen (by simp) (by simp)))

/-- Settles O30. -/
theorem callPushesTheAddressAfterIt : Obligations.CallPushesTheAddressAfterIt := by
  intro nnn s free
  have h := sp_lt_of_ne_full free
  have entries (k : Fin 16) : (s.called nnn h).stack[k] = if k.val = s.sp.val then s.pc + 2 else s.stack[k] := by
    simp [State.called, Vector.getElem_set, eq_comm]
  exact ⟨_, exec_call_free nnn s h, zextAddr_toNat nnn, rfl, entries, OnlyChanges.setStack_setPc s _ _ _⟩

/-- Settles O31. -/
theorem returnPopsTheTopEntry : Obligations.ReturnPopsTheTopEntry := by
  intro s used
  obtain ⟨a, p, meaning, top, sp⟩ := exec_ret_used s fun e => used (Fin.ext e)
  exact ⟨_, meaning, top, sp, rfl, OnlyChanges.setStack_setPc s s.stack p a⟩

/-- Settles O32: neither finds an entry, and the words recorded are the encoder's. -/
theorem stackBoundsRaisePrecisely : Obligations.StackBoundsRaisePrecisely := by
  constructor
  · intro nnn s full
    have word : encodeWord (.call nnn) = BitVec.ofNat 16 (0x2000 + nnn.toNat) := by
      apply BitVec.eq_of_toNat_eq
      have := nnn.isLt
      rw [encodeWord, formatNNN_toNat, BitVec.toNat_ofNat, Nat.mod_eq_of_lt (by omega)]
      rfl
    rw [exec_call_full nnn s (congrArg Fin.val full), word]
    rfl
  · intro s empty
    rw [exec_ret_empty s (congrArg Fin.val empty)]
    rfl

/-- Settles O33: the top entry after the CALL is the one it pushed. -/
theorem returnResumesAfterTheCall : Obligations.ReturnResumesAfterTheCall := by
  intro nnn s u free
  obtain ⟨t, called, -, spCalled, entries, -⟩ := callPushesTheAddressAfterIt nnn s free
  refine ⟨t, called, fun stack sp => ?_⟩
  have spU : u.sp.val = s.sp.val + 1 := sp ▸ spCalled
  obtain ⟨w, returned, top, spW, -, -⟩ := returnPopsTheTopEntry u fun e => by simp [e] at spU
  have inside := sp_lt_of_ne_full free
  have pushed : t.stack[s.sp.val] = s.pc + 2 := by simpa using entries ⟨s.sp.val, inside⟩
  have pc : w.pc = s.pc + 2 := by
    rw [stack, spU, Nat.add_sub_cancel, Vector.getElem?_eq_getElem inside, pushed] at top
    exact (Option.some.inj top).symm
  refine ⟨w, returned, ?_, Fin.ext (by omega)⟩
  rw [pc]
  exact word_add_toNat s.pc 2 (by decide)

end Sys2Proof.Machine
end

section
/-!
PROOFS. Skips (spec/42_skip.md, spec/40_engine.md R94): every skip, by its condition.
-/
namespace Sys2Proof.Machine

/-- The low nibble as a number. -/
theorem lowNibble_val (b : Byte) : (lowNibble b).val = b.toNat % 16 := by
  simp [lowNibble]

theorem exec_skp (x : RegIdx) (s : State) : exec (.skp x) s = .next (s.skipIf (s.key (lowNibble (s.getV x)))) := rfl

theorem exec_sknp (x : RegIdx) (s : State) : exec (.sknp x) s = .next (s.skipIf (!s.key (lowNibble (s.getV x)))) := rfl

/-- Settles O36: both are skips, on the key of the low nibble and on its negation. -/
theorem keySkipsTestTheKeyOfTheLowNibble : Obligations.KeySkipsTestTheKeyOfTheLowNibble := by
  intro x key s number
  have nibble : lowNibble (s.getV x) = key := Fin.ext ((lowNibble_val _).trans number.symm)
  exact ⟨skips_of_exec_eq (exec_skp x s) (by rw [nibble]), skips_of_exec_eq (exec_sknp x s) (by rw [nibble, Bool.not_eq_true'])⟩

/-- The meaning of an instruction that has a skip condition: a skip on it. -/
theorem exec_of_skipCondition {i : Instr} {s : State} {c : Bool} (h : skipCondition s i = some c) :
    exec i s = .next (s.skipIf c) := by
  cases i with
  | seImm x kk => cases h; rw [exec_seImm, beq_eq_decide]
  | sneImm x kk => cases h; rw [exec_sneImm, bne, beq_eq_decide, decide_not]
  | seReg x y => cases h; rw [exec_seReg, beq_eq_decide]
  | sneReg x y => cases h; rw [exec_sneReg, bne, beq_eq_decide, decide_not]
  | skp x => cases h; exact exec_skp x s
  | sknp x => cases h; exact exec_sknp x s
  | _ => cases h

/-- Settles O24: no skip looks at the word it passes. -/
theorem takenSkipsAdvancePcByFour : Obligations.TakenSkipsAdvancePcByFour := by
  intro i s taken
  exact ⟨_, exec_of_skipCondition taken, State.skipIf_pc_toNat s true, OnlyChanges.skipIf s true⟩

end Sys2Proof.Machine
end

section
/-!
PROOFS. Arithmetic and logic (spec/43_alu.md): the instructions that write one register, and those that write a result and then
the flag (R130).
-/
namespace Sys2Proof.Machine

theorem exec_addImm (x : RegIdx) (kk : Byte) (s : State) :
    exec (.addImm x kk) s = .next (s.advance.setV x (s.getV x + kk)) := rfl

theorem exec_orReg (x y : RegIdx) (s : State) :
    exec (.orReg x y) s = .next (s.advance.setV x (s.getV x ||| s.getV y)) := rfl

theorem exec_andReg (x y : RegIdx) (s : State) :
    exec (.andReg x y) s = .next (s.advance.setV x (s.getV x &&& s.getV y)) := rfl

theorem exec_xorReg (x y : RegIdx) (s : State) :
    exec (.xorReg x y) s = .next (s.advance.setV x (s.getV x ^^^ s.getV y)) := rfl

theorem exec_rnd (x : RegIdx) (kk : Byte) (s : State) :
    exec (.rnd x kk) s = .next (s.advance.setV x (s.random &&& kk)) := rfl

theorem exec_addReg (x y : RegIdx) (s : State) : exec (.addReg x y) s =
    .next (s.advance.setResultAndFlag x (s.getV x + s.getV y) (carry (s.getV x) (s.getV y))) := rfl

theorem exec_subReg (x y : RegIdx) (s : State) : exec (.subReg x y) s =
    .next (s.advance.setResultAndFlag x (s.getV x - s.getV y) (noBorrow (s.getV x) (s.getV y))) := rfl

theorem exec_subnReg (x y : RegIdx) (s : State) : exec (.subnReg x y) s =
    .next (s.advance.setResultAndFlag x (s.getV y - s.getV x) (noBorrow (s.getV y) (s.getV x))) := rfl

theorem exec_shr (x y : RegIdx) (s : State) : exec (.shr x y) s =
    .next (s.advance.setResultAndFlag x (s.getV x >>> 1) (lowBit (s.getV x))) := rfl

theorem exec_shl (x y : RegIdx) (s : State) : exec (.shl x y) s =
    .next (s.advance.setResultAndFlag x (s.getV x <<< 1) (highBit (s.getV x))) := rfl

/-- Settles O38: 7xkk is one register write. -/
theorem addImmediateWrapsWithNoFlag : Obligations.AddImmediateWrapsWithNoFlag := by
  intro x kk s
  obtain ⟨t, meaning, result, pc, frame⟩ := writes_register_of_exec_eq (exec_addImm x kk s)
  exact ⟨t, meaning, by rw [result, BitVec.toNat_add], pc, frame⟩

/-- Settles O39: each is one register write. -/
theorem logicWorksBitByBitWithNoFlag : Obligations.LogicWorksBitByBitWithNoFlag := by
  intro x y s
  refine ⟨?_, ?_, ?_⟩
  · obtain ⟨t, meaning, result, pc, frame⟩ := writes_register_of_exec_eq (exec_orReg x y s)
    exact ⟨t, meaning, pc, frame, fun k _ => by rw [result, BitVec.getLsbD_or]⟩
  · obtain ⟨t, meaning, result, pc, frame⟩ := writes_register_of_exec_eq (exec_andReg x y s)
    exact ⟨t, meaning, pc, frame, fun k _ => by rw [result, BitVec.getLsbD_and]⟩
  · obtain ⟨t, meaning, result, pc, frame⟩ := writes_register_of_exec_eq (exec_xorReg x y s)
    exact ⟨t, meaning, pc, frame, fun k _ => by rw [result, BitVec.getLsbD_xor]⟩

/-- Settles O43: Cxkk is one register write, of the cycle's random byte under the mask. -/
theorem randomIsTheCyclesByteMasked : Obligations.RandomIsTheCyclesByteMasked := by
  intro x kk s
  obtain ⟨t, meaning, result, pc, frame⟩ := writes_register_of_exec_eq (exec_rnd x kk s)
  refine ⟨t, meaning, pc, frame, fun b named => ?_, fun free => ?_⟩
  · rw [result, State.random, named]; rfl
  · rw [result, State.random, free]; rfl

/-- An instruction that writes a result to Vx and then the flag, after the fetch advance, goes on at A + 2, and changes nothing
else; with x = F the flag is what remains. -/
theorem writes_flag_of_exec_eq {i : Instr} {s : State} {x : RegIdx} {b : Byte} {f : Bool}
    (meaning : exec i s = .next (s.advance.setResultAndFlag x b f)) :
    ∃ t, exec i s = .next t ∧ t.pc = s.pc + 2 ∧ OnlyChanges [] [x, VF] s t ∧ (x ≠ VF → t.getV x = b) ∧
      (t.getV VF).toNat = if f = true then 1 else 0 := by
  have frame := OnlyChanges.after_advance s (OnlyChanges.setResultAndFlag s.advance x b f)
  have flag : ((s.advance.setResultAndFlag x b f).getV VF).toNat = if f = true then 1 else 0 := by
    rw [State.setResultAndFlag_getV_flag, flagByte_toNat]
  exact ⟨_, meaning, rfl, frame, State.setResultAndFlag_getV_result _ b f, flag⟩

/-- Settles O40. -/
theorem addSetsTheCarry : Obligations.AddSetsTheCarry := by
  intro x y s
  obtain ⟨t, meaning, pc, frame, result, flag⟩ := writes_flag_of_exec_eq (exec_addReg x y s)
  refine ⟨t, meaning, pc, frame, fun hx => by rw [result hx, BitVec.toNat_add], ?_⟩
  simpa only [carry, decide_eq_true_eq] using flag

/-- A difference of bytes is the integers' modulo 256. -/
theorem byte_sub_toNat (a b : Byte) : ((a - b).toNat : Int) = (a.toNat - b.toNat : Int) % 256 := by
  have := a.isLt
  have := b.isLt
  rw [BitVec.toNat_sub]
  omega

/-- Settles O41: the two write the differences of the same two bytes, in the two orders. -/
theorem subtractionsSetNoBorrow : Obligations.SubtractionsSetNoBorrow := by
  intro x y s
  constructor
  · obtain ⟨t, meaning, pc, frame, result, flag⟩ := writes_flag_of_exec_eq (exec_subReg x y s)
    refine ⟨t, meaning, pc, frame, fun hx => by rw [result hx, byte_sub_toNat], ?_⟩
    simpa only [noBorrow, decide_eq_true_eq] using flag
  · obtain ⟨t, meaning, pc, frame, result, flag⟩ := writes_flag_of_exec_eq (exec_subnReg x y s)
    refine ⟨t, meaning, pc, frame, fun hx => by rw [result hx, byte_sub_toNat], ?_⟩
    simpa only [noBorrow, decide_eq_true_eq] using flag

theorem lowBit_toNat (b : Byte) : (if lowBit b = true then 1 else 0) = b.toNat % 2 := by
  have bit : lowBit b = decide (b.toNat % 2 = 1) := by simp [lowBit, BitVec.getLsbD, Nat.testBit_zero]
  rw [bit]
  rcases Nat.mod_two_eq_zero_or_one b.toNat with h | h <;> simp [h]

theorem highBit_toNat (b : Byte) : (if highBit b = true then 1 else 0) = b.toNat / 128 := by
  have := b.isLt
  have bit : highBit b = decide (b.toNat / 128 % 2 = 1) := by
    simp [highBit, BitVec.getLsbD, Nat.testBit_eq_decide_div_mod_eq]
  rw [bit]
  simp only [decide_eq_true_eq]
  split <;> omega

/-- Settles O42: y is in neither meaning. -/
theorem shiftsSetTheBitShiftedOut : Obligations.ShiftsSetTheBitShiftedOut := by
  intro x y s
  constructor
  · obtain ⟨t, meaning, pc, frame, result, flag⟩ := writes_flag_of_exec_eq (exec_shr x y s)
    refine ⟨t, meaning, pc, frame, fun hx => ?_, flag.trans (lowBit_toNat _)⟩
    rw [result hx, BitVec.toNat_ushiftRight, Nat.shiftRight_eq_div_pow]
  · obtain ⟨t, meaning, pc, frame, result, flag⟩ := writes_flag_of_exec_eq (exec_shl x y s)
    refine ⟨t, meaning, pc, frame, fun hx => ?_, flag.trans (highBit_toNat _)⟩
    rw [result hx, BitVec.toNat_shiftLeft, Nat.shiftLeft_eq]

end Sys2Proof.Machine
end

section
/-!
PROOFS. Index register and memory (spec/44_index_memory.md): the sums and the glyph address, the digits and the register block in
memory, and the block loaded back.
-/
namespace Sys2Proof.Machine

theorem exec_addI (x : RegIdx) (s : State) : exec (.addI x) s = .next (s.advance.setI (addMod4096 s.i (s.getV x))) := rfl

theorem exec_ldF (x : RegIdx) (s : State) :
    exec (.ldF x) s = .next (s.advance.setI (fontAddr (lowNibble (s.getV x)))) := rfl

theorem exec_ldB (x : RegIdx) (s : State) : exec (.ldB x) s = .next (s.advance.setMem (s.storeBcd (s.getV x))) := rfl

theorem exec_storeRegs (x : RegIdx) (s : State) :
    exec (.storeRegs x) s = .next (s.advance.setMem (s.storeBlock (x.val + 1))) := rfl

theorem exec_loadRegs (x : RegIdx) (s : State) :
    exec (.loadRegs x) s = .next (s.advance.setAllV (s.loadBlock (x.val + 1)).v) := rfl

theorem addMod4096_toNat (i : Word) (b : Byte) : (addMod4096 i b).toNat = (i.toNat + b.toNat) % 4096 := by
  have masked : (addMod4096 i b).toNat = maskAddr (i + zextByte b) := rfl
  rw [masked, maskAddr_eq, BitVec.toNat_add, zextByte, BitVec.toNat_setWidth]
  omega

theorem fontAddr_toNat (d : RegIdx) : (fontAddr d).toNat = 5 * d.val := by
  have := d.isLt
  simp only [fontAddr, Config.fontBase, Config.glyphBytes, BitVec.toNat_ofNat]
  omega

/-- Settles O45: Fx1E is one write of I. -/
theorem addIndexWrapsAt4096 : Obligations.AddIndexWrapsAt4096 := by
  intro x s
  obtain ⟨t, meaning, index, pc, frame⟩ := writes_index_of_exec_eq (exec_addI x s)
  exact ⟨t, meaning, by rw [index, addMod4096_toNat], pc, frame⟩

/-- Settles O46: Fx29 is one write of I. -/
theorem loadFontPointsAtTheGlyph : Obligations.LoadFontPointsAtTheGlyph := by
  intro x s
  obtain ⟨t, meaning, index, pc, frame⟩ := writes_index_of_exec_eq (exec_ldF x s)
  exact ⟨t, meaning, by rw [index, fontAddr_toNat, lowNibble_val], pc, frame⟩

/-- An instruction that writes memory after the fetch advance goes on at A + 2, and changes nothing else. -/
theorem writes_memory_of_exec_eq {i : Instr} {s : State} {m : Memory} (meaning : exec i s = .next (s.advance.setMem m)) :
    ∃ t, exec i s = .next t ∧ t.pc = s.pc + 2 ∧ OnlyChanges [.memory] [] s t ∧ ∀ a, t.read a = m.read a :=
  ⟨_, meaning, rfl, OnlyChanges.after_advance s (OnlyChanges.setMem s.advance m), fun _ => rfl⟩

/-- Two of the bytes a transfer stores lie at different masked addresses: none stores more than M holds. -/
theorem maskAddr_addrAt_ne (s : State) {j k : Nat} (hj : j < 4096) (hk : k < 4096) (h : j ≠ k) :
    maskAddr (s.addrAt j) ≠ maskAddr (s.addrAt k) := by
  rw [maskAddr_addrAt, maskAddr_addrAt]
  omega

theorem hundreds_toNat (b : Byte) : (hundreds b).toNat = b.toNat / 100 := by
  have := b.isLt
  rw [hundreds, BitVec.toNat_ofNat, Nat.mod_eq_of_lt (by omega)]

theorem tens_toNat (b : Byte) : (tens b).toNat = b.toNat / 10 % 10 := by
  rw [tens, BitVec.toNat_ofNat, Nat.mod_eq_of_lt (by omega)]

theorem ones_toNat (b : Byte) : (ones b).toNat = b.toNat % 10 := by
  rw [ones, BitVec.toNat_ofNat, Nat.mod_eq_of_lt (by omega)]

/-- The three writes of Fx33: each digit stands at its address, and an address none of them names reads as before. -/
theorem State.storeBcd_read (s : State) (b : Byte) :
    (s.storeBcd b).read (s.addrAt 0) = hundreds b ∧ (s.storeBcd b).read (s.addrAt 1) = tens b ∧
    (s.storeBcd b).read (s.addrAt 2) = ones b ∧
    ∀ a, (∀ k < 3, maskAddr a ≠ maskAddr (s.addrAt k)) → (s.storeBcd b).read a = s.read a := by
  have apart {j k : Nat} (hj : j < 3) (hk : k < 3) (h : j ≠ k) : maskAddr (s.addrAt j) ≠ maskAddr (s.addrAt k) :=
    maskAddr_addrAt_ne s (by omega) (by omega) h
  refine ⟨?_, ?_, Memory.write_read_same _ _ rfl, fun a outside => ?_⟩
  · rw [State.storeBcd, Memory.write_read_other _ _ (apart (by decide) (by decide) (by decide)),
      Memory.write_read_other _ _ (apart (by decide) (by decide) (by decide)), Memory.write_read_same _ _ rfl]
  · rw [State.storeBcd, Memory.write_read_other _ _ (apart (by decide) (by decide) (by decide)),
      Memory.write_read_same _ _ rfl]
  · rw [State.storeBcd, Memory.write_read_other _ _ (outside 2 (by decide)),
      Memory.write_read_other _ _ (outside 1 (by decide)), Memory.write_read_other _ _ (outside 0 (by decide)),
      State.read_def]

/-- Settles O47. -/
theorem bcdStoresThreeDigits : Obligations.BcdStoresThreeDigits := by
  intro x s
  obtain ⟨t, meaning, pc, frame, memory⟩ := writes_memory_of_exec_eq (exec_ldB x s)
  obtain ⟨at0, at1, at2, others⟩ := s.storeBcd_read (s.getV x)
  refine ⟨t, meaning, pc, frame, ?_, ?_, ?_, fun a outside => (memory a).trans (others a outside)⟩
  · rw [memory, at0, hundreds_toNat]
  · rw [memory, at1, tens_toNat]
  · rw [memory, at2, ones_toNat]

/-- Settles O48. -/
theorem storeBlockWritesTheRegisters : Obligations.StoreBlockWritesTheRegisters := by
  intro x s
  obtain ⟨t, meaning, pc, frame, memory⟩ := writes_memory_of_exec_eq (exec_storeRegs x s)
  obtain ⟨stored, others⟩ := s.storeBlock_read (x.val + 1) x.isLt
  refine ⟨t, meaning, pc, frame, fun r hr => ?_, fun a outside => ?_⟩
  · rw [memory]; exact stored r.val (Nat.lt_succ_of_le hr)
  · rw [memory]; exact others a fun k hk => outside k (Nat.le_of_lt_succ hk)

/-- Settles O49. -/
theorem loadBlockReadsTheRegisters : Obligations.LoadBlockReadsTheRegisters := by
  intro x s
  have registers := (s.loadBlock_spec (x.val + 1) x.isLt).1
  have kept (r : RegIdx) (outside : r ∉ (List.finRange 16).filter (fun r => decide (r ≤ x))) :
      (s.loadBlock (x.val + 1)).v[r] = s.advance.getV r := by
    have above : ¬ r ≤ x := fun h => outside (List.mem_filter.mpr ⟨List.mem_finRange r, decide_eq_true h⟩)
    exact (registers r).trans (if_neg fun h => above (Nat.le_of_lt_succ h))
  exact ⟨_, exec_loadRegs x s, rfl, OnlyChanges.after_advance s (OnlyChanges.setAllV s.advance _ _ kept),
    fun r hr => (registers r).trans (if_pos (Nat.lt_succ_of_le hr))⟩

/-- Settles O50: the block loaded lies where the block was stored. -/
theorem storeThenLoadRestoresTheRegisters : Obligations.StoreThenLoadRestoresTheRegisters := by
  intro x s u
  obtain ⟨t, meaning, -, frame, stored, -⟩ := storeBlockWritesTheRegisters x s
  refine ⟨t, meaning, fun index memory => ?_⟩
  obtain ⟨w, loads, -, -, loaded⟩ := loadBlockReadsTheRegisters x u
  refine ⟨w, loads, fun r hr => ?_⟩
  have address : u.addrAt r.val = s.addrAt r.val := by rw [State.addrAt, index, frame.index (by decide), State.addrAt]
  calc w.getV r = u.read (u.addrAt r.val) := loaded r hr
    _ = t.read (s.addrAt r.val) := by rw [address, State.read_def, memory, State.read_def]
    _ = s.getV r := stored r hr

/-- Addresses that mask alike read alike (R51). -/
theorem State.read_congr (s : State) {a b : Word} (h : maskAddr a = maskAddr b) : s.read a = s.read b := by
  rw [State.read_def, State.read_def, Memory.read, Memory.read, h]

/-- Settles O10: the two bytes at PC are the bytes at I and I + 1. -/
theorem storedBytesAreFetchedByTheNextCycle : Obligations.StoredBytesAreFetchedByTheNextCycle := by
  intro x s atLeastOne
  obtain ⟨t, meaning, -, -, stored, -⟩ := storeBlockWritesTheRegisters x s
  refine ⟨t, meaning, fun pc => ?_⟩
  have high : t.read t.pc = s.getV 0 := by
    rw [← stored 0 (Nat.zero_le _)]
    exact t.read_congr (by rw [maskAddr_eq, maskAddr_addrAt, pc]; rfl)
  have low : t.read (t.pc + 1) = s.getV 1 := by
    rw [← stored 1 atLeastOne]
    refine t.read_congr ?_
    rw [maskAddr_eq, maskAddr_addrAt, BitVec.toNat_add]
    change (t.pc.toNat + 1) % 65536 % 4096 = (s.i.toNat + 1) % 4096
    omega
  rw [State.fetchWord, wordOfBytes_toNat, high, low]

end Sys2Proof.Machine
end

section
/-!
PROOFS. Timers and keys (spec/45_timers_keys.md): the write of DT, and Fx0A with and without a key pressed.
-/
namespace Sys2Proof.Machine

theorem exec_ldDtVx (x : RegIdx) (s : State) : exec (.ldDtVx x) s = .next (s.advance.setDt (s.getV x)) := rfl

theorem exec_ldVxK_pressed (x : RegIdx) {s : State} {k : RegIdx} (h : s.lowestKey = some k) :
    exec (.ldVxK x) s = .next (s.advance.setV x (byteOfIdx k)) := by
  simp only [exec, execLdVxK, h]

/-- With no key pressed the advance of PC is taken back, and the state is the one the cycle found. -/
theorem exec_ldVxK_waits (x : RegIdx) {s : State} (h : ∀ k, s.key k = false) : exec (.ldVxK x) s = .next s := by
  simp only [exec, execLdVxK, s.lowestKey_eq_none.mpr h]
  rfl

theorem byteOfIdx_toNat (k : RegIdx) : (byteOfIdx k).toNat = k.val := by
  rw [byteOfIdx, BitVec.toNat_ofNat, Nat.mod_eq_of_lt]
  omega

/-- Settles O52: Fx15 is one write of DT. -/
theorem setDelayTimer : Obligations.SetDelayTimer := by
  intro x s
  exact ⟨_, exec_ldDtVx x s, rfl, rfl, OnlyChanges.after_advance s (OnlyChanges.setDt s.advance _)⟩

/-- Settles O54: Fx0A is then one register write, of the number of the key. -/
theorem waitTakesTheLeastPressedKey : Obligations.WaitTakesTheLeastPressedKey := by
  intro x k s pressed least
  obtain ⟨t, meaning, result, pc, frame⟩ :=
    writes_register_of_exec_eq (exec_ldVxK_pressed x (s.lowestKey_eq_some pressed least))
  exact ⟨t, meaning, by rw [result, byteOfIdx_toNat], pc, frame⟩

/-- Settles O55. -/
theorem waitWithNoKeyChangesNothing : Obligations.WaitWithNoKeyChangesNothing :=
  fun x _ noKey => exec_ldVxK_waits x noKey

end Sys2Proof.Machine
end

section
/-!
PROOFS. Display (spec/46_display.md R171-R173): what Dxyn draws, by the pixels its sprite covers, and a second draw over the first.
-/
namespace Sys2Proof.Machine

/-- The whole sprite toggles the pixels it covers, the coordinates reduced. -/
theorem State.drawSprite_toggles (s : State) (x y : RegIdx) {n : Nat} (hn : n < 16) :
    Toggles (fun px py => SpriteCovers s x y n (px % 64) (py % 32)) (s.fb, false) (s.drawSprite x y n) :=
  s.drawRows_toggles (s.getV x) (s.getV y) n (by omega) (s.fb, false)

/-- A covered pixel has reduced coordinates. -/
theorem SpriteCovers.reduced {s : State} {x y : RegIdx} {n px py : Nat} (h : SpriteCovers s x y n px py) :
    px % 64 = px ∧ py % 32 = py := by
  obtain ⟨r, c, -, -, -, hx, hy⟩ := h
  omega

/-- The sprite's place and bits depend on memory, I, Vx and Vy alone. -/
theorem spriteCovers_congr {s t : State} {x y : RegIdx} {n px py : Nat} (index : t.i = s.i) (memory : ∀ a, t.read a = s.read a)
    (hx : t.getV x = s.getV x) (hy : t.getV y = s.getV y) : SpriteCovers t x y n px py ↔ SpriteCovers s x y n px py := by
  simp only [SpriteCovers, SpriteBit, State.addrAt, index, memory, hx, hy]

/-- The state Dxyn leaves: the drawing in FB, the collision in VF. -/
def State.drawn (s : State) (x y : RegIdx) (n : Nat) : State :=
  (s.advance.setFb (s.drawSprite x y n).1).setFlag (s.drawSprite x y n).2

theorem exec_drw (x y : RegIdx) (n : Nat) (s : State) : exec (.drw x y n) s = .next (s.drawn x y n) := rfl

theorem State.drawn_frame (s : State) (x y : RegIdx) (n : Nat) : OnlyChanges [.display] [VF] s (s.drawn x y n) :=
  OnlyChanges.after_advance s (((OnlyChanges.setFb s.advance _).widen (by simp) (by simp)).trans
    ((OnlyChanges.setV _ VF _).widen (by simp) (by simp)))

theorem State.drawn_pixel_covered {s : State} {x y : RegIdx} {n px py : Nat} (hn : n < 16)
    (h : SpriteCovers s x y n (px % 64) (py % 32)) : (s.drawn x y n).pixel px py = !s.pixel px py :=
  (s.drawSprite_toggles x y hn).inside px py h

theorem State.drawn_pixel_uncovered {s : State} {x y : RegIdx} {n px py : Nat} (hn : n < 16)
    (h : ¬ SpriteCovers s x y n (px % 64) (py % 32)) : (s.drawn x y n).pixel px py = s.pixel px py :=
  (s.drawSprite_toggles x y hn).outside px py h

/-- The collision: a covered pixel was on. -/
theorem State.drawSprite_collides (s : State) (x y : RegIdx) {n : Nat} (hn : n < 16) :
    (s.drawSprite x y n).2 = true ↔ ∃ px py, SpriteCovers s x y n px py ∧ s.pixel px py = true := by
  rw [(s.drawSprite_toggles x y hn).collision]
  constructor
  · rintro (h | ⟨px, py, covered, on⟩)
    · cases h
    · exact ⟨px % 64, py % 32, covered, (FrameBuffer.pixel_mod s.fb px py).trans on⟩
  · rintro ⟨px, py, covered, on⟩
    obtain ⟨hx, hy⟩ := covered.reduced
    exact .inr ⟨px, py, by rwa [hx, hy], on⟩

theorem State.drawn_flag (s : State) (x y : RegIdx) (n : Nat) :
    (s.drawn x y n).getV VF = flagByte (s.drawSprite x y n).2 := State.setV_getV_same _ _ _

theorem flagByte_eq_one (f : Bool) : flagByte f = 1 ↔ f = true := by
  cases f <;> decide

theorem flagByte_eq_zero (f : Bool) : flagByte f = 0 ↔ ¬ f = true := by
  cases f <;> decide

/-- Settles O58. -/
theorem drawXorsTheSpriteAndReportsCollision : Obligations.DrawXorsTheSpriteAndReportsCollision := by
  intro x y n s wellFormed
  have hn : n < 16 := of_decide_eq_true wellFormed
  refine ⟨_, exec_drw x y n s, rfl, s.drawn_frame x y n, fun px hx py hy => ?_, fun collides => ?_, fun clear => ?_⟩
  · have reduced : SpriteCovers s x y n (px % 64) (py % 32) ↔ SpriteCovers s x y n px py := by
      rw [Nat.mod_eq_of_lt hx, Nat.mod_eq_of_lt hy]
    exact ⟨fun h => State.drawn_pixel_covered hn (reduced.mpr h), fun h => State.drawn_pixel_uncovered hn (reduced.not.mpr h)⟩
  · rw [State.drawn_flag, flagByte_eq_one, s.drawSprite_collides x y hn]; exact collides
  · rw [State.drawn_flag, flagByte_eq_zero, s.drawSprite_collides x y hn]; exact clear

/-- Settles O59: the second draw covers the pixels of the first, since neither reads what a draw writes. -/
theorem drawingTwiceRestoresTheDisplay : Obligations.DrawingTwiceRestoresTheDisplay := by
  intro x y n s hx hy wellFormed
  have hn : n < 16 := of_decide_eq_true wellFormed
  have frame := s.drawn_frame x y n
  have same {px py : Nat} : SpriteCovers (s.drawn x y n) x y n px py ↔ SpriteCovers s x y n px py :=
    spriteCovers_congr (frame.index (by decide)) (frame.memory (by decide)) (frame.regs x (by simpa using hx))
      (frame.regs y (by simpa using hy))
  refine ⟨_, _, exec_drw x y n s, exec_drw x y n _, fun px py => ?_, ?_⟩
  · by_cases covered : SpriteCovers s x y n (px % 64) (py % 32)
    · rw [State.drawn_pixel_covered hn (same.mpr covered), State.drawn_pixel_covered hn covered, Bool.not_not]
    · rw [State.drawn_pixel_uncovered hn (same.not.mpr covered), State.drawn_pixel_uncovered hn covered]
  · rw [State.drawn_flag, flagByte_eq_one, State.drawSprite_collides _ x y hn]
    refine exists_congr fun px => exists_congr fun py => ?_
    rw [same]
    refine and_congr_right fun covered => ?_
    obtain ⟨redx, redy⟩ := covered.reduced
    rw [State.drawn_pixel_covered hn (by rwa [redx, redy]), Bool.not_eq_true']

end Sys2Proof.Machine
end

section
/-!
PROOFS. Rules over all instructions (spec/40_engine.md R93, R197; spec/60_exceptions.md R182, R183): how an instruction ends its
cycle, said once, and what follows for the next state, the raised conditions, the frame and PC.
-/
namespace Sys2Proof.Machine

/-- Nothing changes. -/
theorem OnlyChanges.refl (p : List Part) (r : List RegIdx) (s : State) : OnlyChanges p r s s :=
  (OnlyChanges.setPc s s.pc).widen (by simp) (by simp)

/-- The instruction answers a next state inside its frame, raising nothing. -/
def Completes (i : Instr) (s : State) : Prop :=
  ∃ t, exec i s = .next t ∧ OnlyChanges (writtenParts i) (writtenRegs i) s t

/-- CALL with no entry free. -/
def Overflows (i : Instr) (s : State) : Prop :=
  ∃ nnn, i = .call nnn ∧ s.sp = 16 ∧ exec i s = .next (s.raise .stackOverflow (encodeWord i) s.pc)

/-- RET with no entry in use. -/
def Underflows (i : Instr) (s : State) : Prop :=
  i = .ret ∧ s.sp = 0 ∧ exec i s = .next (s.raise .stackUnderflow (encodeWord i) s.pc)

theorem call_completes_or_overflows (nnn : Addr) (s : State) : Completes (.call nnn) s ∨ Overflows (.call nnn) s := by
  by_cases full : s.sp = 16
  · exact .inr ⟨nnn, rfl, full, exec_call_full nnn s (congrArg Fin.val full)⟩
  · obtain ⟨t, meaning, -, -, -, frame⟩ := callPushesTheAddressAfterIt nnn s full
    exact .inl ⟨t, meaning, frame⟩

theorem ret_completes_or_underflows (s : State) : Completes .ret s ∨ Underflows .ret s := by
  by_cases empty : s.sp = 0
  · exact .inr ⟨rfl, empty, exec_ret_empty s (congrArg Fin.val empty)⟩
  · obtain ⟨t, meaning, -, -, -, frame⟩ := returnPopsTheTopEntry s empty
    exact .inl ⟨t, meaning, frame⟩

theorem ldVxK_completes (x : RegIdx) (s : State) : Completes (.ldVxK x) s := by
  cases search : s.lowestKey with
  | none => exact ⟨s, exec_ldVxK_waits x (s.lowestKey_eq_none.mp search), OnlyChanges.refl _ _ s⟩
  | some k =>
    exact ⟨_, exec_ldVxK_pressed x search, OnlyChanges.after_advance s (OnlyChanges.setV s.advance x _)⟩

/-- Every instruction completes, but CALL on a full stack and RET on an empty one. -/
theorem completes_or_raises (i : Instr) (s : State) : Completes i s ∨ Overflows i s ∨ Underflows i s := by
  cases i with
  | call nnn => exact (call_completes_or_overflows nnn s).imp_right .inl
  | ret => exact (ret_completes_or_underflows s).imp_right .inr
  | ldVxK x => exact .inl (ldVxK_completes x s)
  | loadRegs x =>
    obtain ⟨t, meaning, -, frame, -⟩ := loadBlockReadsTheRegisters x s
    exact .inl ⟨t, meaning, frame⟩
  | drw x y n => exact .inl ⟨_, exec_drw x y n s, s.drawn_frame x y n⟩
  | cls => exact .inl ⟨_, rfl, OnlyChanges.after_advance s (OnlyChanges.setFb s.advance _)⟩
  | jp | jpV0 => exact .inl ⟨_, rfl, OnlyChanges.after_advance s (OnlyChanges.setPc s.advance _)⟩
  | seImm | sneImm | seReg | sneReg | skp | sknp => exact .inl ⟨_, rfl, OnlyChanges.skipIf s _⟩
  | ldImm | addImm | ldReg | orReg | andReg | xorReg | rnd | ldVxDt =>
    exact .inl ⟨_, rfl, OnlyChanges.after_advance s (OnlyChanges.setV s.advance _ _)⟩
  | addReg | subReg | shr | subnReg | shl =>
    exact .inl ⟨_, rfl, OnlyChanges.after_advance s (OnlyChanges.setResultAndFlag s.advance _ _ _)⟩
  | ldI | addI | ldF => exact .inl ⟨_, rfl, OnlyChanges.after_advance s (OnlyChanges.setI s.advance _)⟩
  | ldB | storeRegs => exact .inl ⟨_, rfl, OnlyChanges.after_advance s (OnlyChanges.setMem s.advance _)⟩
  | ldDtVx => exact .inl ⟨_, rfl, OnlyChanges.after_advance s (OnlyChanges.setDt s.advance _)⟩
  | ldStVx => exact .inl ⟨_, rfl, OnlyChanges.after_advance s (OnlyChanges.setSt s.advance _)⟩

/-- The next state is the one the meaning names. -/
theorem next_unique {i : Instr} {s t u : State} (h : exec i s = .next t) (h' : exec i s = .next u) : t = u :=
  Host.Outcome.next.inj (h.symm.trans h')

/-- The same, of the state an instruction answered. -/
theorem exec_next_cases {i : Instr} {s t : State} (h : exec i s = .next t) :
    OnlyChanges (writtenParts i) (writtenRegs i) s t ∨
    (∃ nnn, i = .call nnn ∧ s.sp = 16 ∧ t = s.raise .stackOverflow (encodeWord i) s.pc) ∨
    (i = .ret ∧ s.sp = 0 ∧ t = s.raise .stackUnderflow (encodeWord i) s.pc) := by
  rcases completes_or_raises i s with ⟨u, meaning, frame⟩ | ⟨nnn, call, full, meaning⟩ | ⟨ret, empty, meaning⟩
  · exact .inl (next_unique h meaning ▸ frame)
  · exact .inr (.inl ⟨nnn, call, full, next_unique h meaning⟩)
  · exact .inr (.inr ⟨ret, empty, next_unique h meaning⟩)

/-- Settles O20. -/
theorem everyInstructionAnswersANextState : Obligations.EveryInstructionAnswersANextState := by
  intro i s
  rcases completes_or_raises i s with ⟨t, meaning, -⟩ | ⟨-, -, -, meaning⟩ | ⟨-, -, meaning⟩
  · exact ⟨t, meaning⟩
  · exact ⟨_, meaning⟩
  · exact ⟨_, meaning⟩

/-- Settles O21. -/
theorem onlyCallAndReturnRaise : Obligations.OnlyCallAndReturnRaise := by
  intro i s t h
  rcases exec_next_cases h with frame | ⟨nnn, call, full, rfl⟩ | ⟨ret, empty, rfl⟩
  · exact .inl frame.fsr
  · exact .inr (.inl ⟨nnn, call, full, rfl⟩)
  · exact .inr (.inr ⟨ret, empty, rfl⟩)

/-! ### The bytes of memory an instruction leaves alone -/

theorem memory_unwritten_or_stores (i : Instr) : Part.memory ∉ writtenParts i ∨ (∃ x, i = .ldB x) ∨ ∃ x, i = .storeRegs x := by
  cases i with
  | ldB x => exact .inr (.inl ⟨x, rfl⟩)
  | storeRegs x => exact .inr (.inr ⟨x, rfl⟩)
  | _ => exact .inl (by simp [writtenParts])

/-- A completed instruction leaves every byte alone but those it stores. -/
theorem exec_memory_frame {i : Instr} {s t : State} (h : exec i s = .next t)
    (frame : OnlyChanges (writtenParts i) (writtenRegs i) s t) (a : Word)
    (outside : ∀ k < storedBytes i, maskAddr a ≠ maskAddr (s.addrAt k)) : t.read a = s.read a := by
  rcases memory_unwritten_or_stores i with unwritten | ⟨x, rfl⟩ | ⟨x, rfl⟩
  · exact frame.memory unwritten a
  · obtain ⟨u, meaning, -, -, -, -, -, others⟩ := bcdStoresThreeDigits x s
    exact next_unique h meaning ▸ others a outside
  · obtain ⟨u, meaning, -, -, -, others⟩ := storeBlockWritesTheRegisters x s
    exact next_unique h meaning ▸ others a fun k hk => outside k (Nat.lt_succ_of_le hk)

/-- Settles O22: a completed instruction keeps FSR and its frame; a raised one changes FSR alone. -/
theorem everyInstructionWritesOnlyWhatItsRuleNames : Obligations.EveryInstructionWritesOnlyWhatItsRuleNames := by
  intro i s t h
  rcases exec_next_cases h with frame | ⟨-, -, -, rfl⟩ | ⟨-, -, rfl⟩
  · have kept : { t with fsr := s.fsr } = t := by rw [← frame.fsr]
    rw [kept]
    exact ⟨frame, exec_memory_frame h frame⟩
  · exact ⟨OnlyChanges.refl _ _ s, fun _ _ => rfl⟩
  · exact ⟨OnlyChanges.refl _ _ s, fun _ _ => rfl⟩

/-! ### Going on in sequence -/

/-- Fx0A with a key pressed finds one. -/
theorem State.lowestKey_of_pressed {s : State} (h : ∃ k, s.key k = true) : ∃ k, s.lowestKey = some k := by
  cases search : s.lowestKey with
  | some k => exact ⟨k, rfl⟩
  | none =>
    obtain ⟨k, pressed⟩ := h
    rw [s.lowestKey_eq_none.mp search k] at pressed
    cases pressed

/-- Settles O23: a skip that is not taken is the fetch advance alone, and no other meaning of the list writes PC after it. -/
theorem sequentialInstructionsAdvancePcByTwo : Obligations.SequentialInstructionsAdvancePcByTwo := by
  intro i s sequential
  suffices advances : ∃ t, exec i s = .next t ∧ t.pc = s.pc + 2 by
    obtain ⟨t, meaning, pc⟩ := advances
    exact ⟨t, meaning, by rw [pc]; exact word_add_toNat s.pc 2 (by decide)⟩
  have untaken (h : skipCondition s i = some false) : ∃ t, exec i s = .next t ∧ t.pc = s.pc + 2 :=
    ⟨_, exec_of_skipCondition h, rfl⟩
  cases i with
  | ret | jp | call | jpV0 => exact sequential.elim
  | seImm | seReg => exact untaken (congrArg some (decide_eq_false sequential))
  | sneImm | sneReg => exact untaken (congrArg some (decide_eq_false (not_not_intro sequential)))
  | skp => exact untaken (congrArg some sequential)
  | sknp => exact untaken (congrArg (fun c => some (!c)) sequential)
  | ldVxK x =>
    obtain ⟨k, search⟩ := State.lowestKey_of_pressed sequential
    exact ⟨_, exec_ldVxK_pressed x search, rfl⟩
  | _ => exact ⟨_, rfl, rfl⟩

end Sys2Proof.Machine
end

section
/-!
PROOFS. The engine and its environment (spec/40_engine.md R90, R98, R100; spec/60_exceptions.md R187-R194;
spec/70_reset_and_hazards.md R213): one step by the event that is due, and runs of several steps.
-/
namespace Sys2Proof.Machine

variable {s : State}

/-! ### One step, by the event that is due -/

theorem step_nil (due : s.schedule = []) : step s = s.cycle none := by
  rw [step, due]

theorem step_cycle {b : Byte} {rest : List Event} (due : s.schedule = .cycle b :: rest) :
    step s = (s.withSchedule rest).cycle (some b) := by
  rw [step, due]

theorem step_tick {rest : List Event} (due : s.schedule = .tick :: rest) : step s = .next (s.withSchedule rest).tick := by
  rw [step, due]

theorem step_setKeys {k : Keypad} {rest : List Event} (due : s.schedule = .setKeys k :: rest) :
    step s = .next ((s.withSchedule rest).pressKeys k) := by
  rw [step, due]

theorem step_load {image : List Byte} {rest : List Event} (due : s.schedule = .load image :: rest) :
    step s = (s.withSchedule rest).loadEvent image := by
  rw [step, due]

/-! ### One cycle -/

theorem State.cycle_halted (r : Option Byte) (halted : s.fsr.halted = true) : s.cycle r = .fault .halted := by
  rw [State.cycle, if_pos halted]

theorem State.cycle_executes (r : Option Byte) {i : Instr} (running : s.fsr.halted = false)
    (decoded : decodeWord s.fetchWord = .ok i) : s.cycle r = exec i (s.beginCycle r) := by
  simp [State.cycle, running, decoded]

theorem State.cycle_illegal (r : Option Byte) (running : s.fsr.halted = false) (illegal : IllegalWord s.fetchWord) :
    s.cycle r = .next ((s.beginCycle r).raise .unknownInstruction s.fetchWord s.pc) := by
  have refused := (decodeWord_eq_error s.fetchWord _).mpr ⟨rfl, illegal⟩
  simp [State.cycle, running, refused]

/-- A running machine's cycle always answers a next state (R197). -/
theorem State.cycle_running (r : Option Byte) (running : s.fsr.halted = false) : ∃ t, s.cycle r = .next t := by
  cases decoded : decodeWord s.fetchWord with
  | ok i =>
    rw [State.cycle_executes r running decoded]
    exact everyInstructionAnswersANextState i _
  | error e => exact ⟨_, State.cycle_illegal r running ((decodeWord_eq_error _ e).mp decoded).2⟩

/-- Settles O11. -/
theorem stepRunsTheDecodedInstruction : Obligations.StepRunsTheDecodedInstruction := by
  intro s i running bytes
  have decoded : decodeWord s.fetchWord = .ok i := (decode_pair _ _ i).mp bytes
  refine ⟨fun due => ?_, fun b rest due => ?_⟩
  · rw [step_nil due, State.cycle_executes none running decoded]; rfl
  · rw [step_cycle due, State.cycle_executes (s := s.withSchedule rest) (some b) running decoded]; rfl

/-- Settles O12. -/
theorem unknownInstructionHaltsPrecisely : Obligations.UnknownInstructionHaltsPrecisely := by
  intro s running illegal
  refine ⟨fun due => ?_, fun b rest due => ?_⟩
  · rw [step_nil due, State.cycle_illegal none running illegal]; rfl
  · rw [step_cycle due, State.cycle_illegal (s := s.withSchedule rest) (some b) running illegal]; rfl

/-- Settles O17. -/
theorem keypadEventReplacesTheSnapshot : Obligations.KeypadEventReplacesTheSnapshot := by
  intro s k rest running due
  rw [step_setKeys due, State.pressKeys_running (s.withSchedule rest) k running]; rfl

/-! ### Loads -/

theorem State.loadImage_halted (image : List Byte) (halted : s.fsr.halted = true) : s.loadImage image = s := by
  rw [State.loadImage, if_pos halted]

theorem State.loadImage_too_long {image : List Byte} (running : s.fsr.halted = false) (long : 0xE00 < image.length) :
    s.loadImage image = s.raise .programTooLarge 0 0 := by
  simp [State.loadImage, running, long]

theorem State.loadImage_fits {image : List Byte} (running : s.fsr.halted = false) (fits : image.length ≤ 0xE00) :
    s.loadImage image = s.setMem (s.mem.copyImage (BitVec.ofNat 16 Config.programBase) image) := by
  simp [State.loadImage, running, Nat.not_lt.mpr fits]

theorem State.loadEvent_before_first_cycle (image : List Byte) (first : s.cycles = 0) :
    s.loadEvent image = .next (s.loadImage image) := by
  simp [State.loadEvent, first]

theorem State.loadEvent_halted (image : List Byte) (halted : s.fsr.halted = true) : s.loadEvent image = .next s := by
  simp [State.loadEvent, halted, State.loadImage_halted image halted]

theorem State.loadEvent_late (image : List Byte) (running : s.fsr.halted = false) (late : s.cycles ≠ 0) :
    s.loadEvent image = .refused .loadAfterFirstCycle := by
  simp [State.loadEvent, running, late]

/-- Settles O18. -/
theorem loadCopiesTheImage : Obligations.LoadCopiesTheImage := by
  intro s image rest running first due fits
  have taken : step s = .next ((s.withSchedule rest).setMem
      (s.mem.copyImage (BitVec.ofNat 16 Config.programBase) image)) := by
    rw [step_load due, State.loadEvent_before_first_cycle (s := s.withSchedule rest) image first,
      State.loadImage_fits (s := s.withSchedule rest) running fits]
    rfl
  have room : Config.programBase + image.length ≤ 4096 := Nat.add_le_add_left fits 0x200
  refine ⟨_, taken, rfl, rfl, fun a => ?_⟩
  rw [State.setMem_read, Memory.read, Memory.copyImage_lookup s.mem Config.programBase image room, maskAddr_eq,
    State.read_def, Memory.read, maskAddr_eq]

/-- Settles O19. -/
theorem oversizedImageHaltsBeforeTheFirstCycle : Obligations.OversizedImageHaltsBeforeTheFirstCycle := by
  intro s image rest running first due long
  rw [step_load due, State.loadEvent_before_first_cycle (s := s.withSchedule rest) image first,
    State.loadImage_too_long (s := s.withSchedule rest) running long]
  rfl

/-! ### When a step stops -/

theorem State.cycle_faults_iff (r : Option Byte) : (∃ f, s.cycle r = .fault f) ↔ s.fsr.halted = true := by
  cases halted : s.fsr.halted with
  | true => exact iff_of_true ⟨_, State.cycle_halted r halted⟩ rfl
  | false =>
    obtain ⟨t, next⟩ := State.cycle_running r halted
    simp [next]

theorem State.cycle_never_refused (r : Option Byte) : ¬ ∃ f, s.cycle r = .refused f := by
  cases halted : s.fsr.halted with
  | true => simp [State.cycle_halted r halted]
  | false =>
    obtain ⟨t, next⟩ := State.cycle_running r halted
    simp [next]

theorem State.loadEvent_refused_iff (image : List Byte) :
    (∃ f, s.loadEvent image = .refused f) ↔ s.fsr.halted = false ∧ s.cycles ≠ 0 := by
  cases halted : s.fsr.halted with
  | true => simp [State.loadEvent_halted image halted]
  | false =>
    by_cases first : s.cycles = 0
    · simp [State.loadEvent_before_first_cycle image first, first]
    · simp [State.loadEvent_late image halted first, first]

theorem State.loadEvent_never_faults (image : List Byte) : ¬ ∃ f, s.loadEvent image = .fault f := by
  unfold State.loadEvent
  split <;> simp

/-- Settles O14: by the event that is due. -/
theorem stepStopsOnlyWhenHaltedOrLateLoad : Obligations.StepStopsOnlyWhenHaltedOrLateLoad := by
  intro s
  cases due : s.schedule with
  | nil =>
    rw [step_nil due]
    exact ⟨by simp [State.cycle_faults_iff], by simp [State.cycle_never_refused]⟩
  | cons e rest =>
    cases e with
    | cycle b =>
      rw [step_cycle due]
      exact ⟨by simp [State.cycle_faults_iff], by simp [State.cycle_never_refused]⟩
    | tick =>
      rw [step_tick due]
      exact ⟨by simp, by simp⟩
    | setKeys k =>
      rw [step_setKeys due]
      exact ⟨by simp, by simp⟩
    | load image =>
      rw [step_load due]
      exact ⟨by simp [State.loadEvent_never_faults], by simp [State.loadEvent_refused_iff]⟩

/-! ### Runs -/

/-- A run of one step more, where the first step answers a next state. -/
theorem run_succ_of_step (M : Host.Core) {s t : M.State} (n : Nat) (h : M.step s = .next t) :
    M.run (n + 1) s = M.run n t := by
  rw [Host.Core.run, h]

/-- A run that answers a next state began with a step that did. -/
theorem run_succ_next (M : Host.Core) {s u : M.State} {n : Nat} (h : M.run (n + 1) s = .next u) :
    ∃ t, M.step s = .next t ∧ M.run n t = .next u := by
  rw [Host.Core.run] at h
  cases first : M.step s with
  | next t => rw [first] at h; exact ⟨t, rfl, h⟩
  | fault r => rw [first] at h; cases h
  | refused r => rw [first] at h; cases h

/-- A step of a halted machine reads an event and changes nothing (R187, R190, R220). -/
theorem step_halted {t : State} (halted : s.fsr.halted = true) (h : step s = .next t) : ∃ rest, t = s.withSchedule rest := by
  rcases step_next s h with ⟨-, cycle⟩ | ⟨b, rest, -, cycle⟩ | ⟨rest, -, rfl⟩ | ⟨k, rest, -, rfl⟩ | ⟨image, rest, -, load⟩
  · rw [State.cycle_halted none halted] at cycle; cases cycle
  · rw [State.cycle_halted (s := s.withSchedule rest) (some b) halted] at cycle; cases cycle
  · exact ⟨rest, State.tick_halted (s.withSchedule rest) halted⟩
  · exact ⟨rest, State.pressKeys_halted (s.withSchedule rest) k halted⟩
  · rw [State.loadEvent_halted (s := s.withSchedule rest) image halted] at load
    exact ⟨rest, (Host.Outcome.next.inj load).symm⟩

/-- Settles O13. -/
theorem haltedMachineNeverChanges : Obligations.HaltedMachineNeverChanges := by
  intro n
  induction n with
  | zero => intro s t _ h; cases h; rfl
  | succ n ih =>
    intro s t halted h
    obtain ⟨u, first, later⟩ := run_succ_next core h
    obtain ⟨rest, rfl⟩ := step_halted halted first
    exact ih (s.withSchedule rest) t halted later

/-- One tick due first at a running machine. -/
theorem step_tick_running {rest : List Event} (running : s.fsr.halted = false) (due : s.schedule = .tick :: rest) :
    step s = .next { s with dt := countDown s.dt, st := countDown s.st, schedule := rest } := by
  rw [step_tick due, State.tick_running (s.withSchedule rest) running]; rfl

/-- Settles O16: n more ticks take n more from what one tick has left. -/
theorem ticksCountTheTimersToZero : Obligations.TicksCountTheTimersToZero := by
  intro n
  induction n with
  | zero =>
    intro s rest _ due
    have nothing : rest = s.schedule := by simpa using due.symm
    simp [Host.Core.run, nothing]
  | succ n ih =>
    intro s rest running due
    have first := step_tick_running (rest := List.replicate n .tick ++ rest) running
      (by rw [due, List.replicate_succ, List.cons_append])
    have timer (b : Byte) : (countDown b).toNat - n = b.toNat - (n + 1) := by rw [countDown_toNat]; omega
    have later := ih { s with dt := countDown s.dt, st := countDown s.st, schedule := List.replicate n .tick ++ rest }
      rest running rfl
    simp only [timer] at later
    exact (run_succ_of_step core n first).trans later

/-! ### Waiting for a key -/

/-- `t` is `s` but for the timers and the environment's fields. -/
def SameButTimers (s t : State) : Prop :=
  { t with schedule := s.schedule, cycles := s.cycles, rnd := s.rnd, dt := s.dt, st := s.st } = s

theorem SameButTimers.trans {s t u : State} (h : SameButTimers s t) (k : SameButTimers t u) : SameButTimers s u := by
  have last : { u with schedule := s.schedule, cycles := s.cycles, rnd := s.rnd, dt := s.dt, st := s.st } =
      { t with schedule := s.schedule, cycles := s.cycles, rnd := s.rnd, dt := s.dt, st := s.st } :=
    congrArg (fun r : State => { r with schedule := s.schedule, cycles := s.cycles, rnd := s.rnd, dt := s.dt, st := s.st }) k
  exact last.trans h

/-- Whether the machine waits does not depend on the timers or the environment's fields. -/
theorem WaitsForKey.of_sameButTimers {x : RegIdx} {s t : State} (h : SameButTimers s t) (waits : WaitsForKey x s) :
    WaitsForKey x t := by
  rw [← h] at waits
  exact ⟨waits.running, waits.fetched, waits.noKey⟩

/-- A cycle or a tick at a waiting machine: it waits on, and only the tick takes 1 from the timers. -/
theorem WaitsForKey.step_next {x : RegIdx} {e : Event} {rest : List Event} (waits : WaitsForKey x s)
    (due : s.schedule = e :: rest) (event : e = .tick ∨ ∃ b, e = .cycle b) :
    ∃ t, step s = .next t ∧ SameButTimers s t ∧ t.schedule = rest ∧
      t.dt.toNat = s.dt.toNat - [e].count .tick ∧ t.st.toNat = s.st.toNat - [e].count .tick := by
  rcases event with rfl | ⟨b, rfl⟩
  · exact ⟨_, step_tick_running waits.running due, rfl, rfl, countDown_toNat s.dt, countDown_toNat s.st⟩
  · have waited : step s = .next ((s.withSchedule rest).beginCycle (some b)) := by
      rw [step_cycle due, State.cycle_executes (s := s.withSchedule rest) (some b) waits.running waits.fetched]
      exact exec_ldVxK_waits x waits.noKey
    exact ⟨_, waited, rfl, rfl, rfl, rfl⟩

/-- Settles O56. -/
theorem waitingLetsTheTimersCount : Obligations.WaitingLetsTheTimersCount := by
  intro x events
  induction events with
  | nil =>
    intro rest s waits due _
    exact ⟨s, rfl, waits, rfl, due, rfl, rfl⟩
  | cons e events ih =>
    intro rest s waits due allowed
    obtain ⟨t, first, same, left, dt, st⟩ := waits.step_next due (allowed e (by simp))
    obtain ⟨u, later, waits', same', left', dt', st'⟩ :=
      ih rest t (waits.of_sameButTimers same) left fun f hf => allowed f (by simp [hf])
    refine ⟨u, (run_succ_of_step core _ first).trans later, waits', same.trans same', left', ?_, ?_⟩
    · rw [dt', dt, Nat.sub_sub, ← List.count_append, List.singleton_append]
    · rw [st', st, Nat.sub_sub, ← List.count_append, List.singleton_append]

end Sys2Proof.Machine
end

section
/-!
PROOFS. The invariants of the state (spec/10_state.md R33, R36; spec/60_exceptions.md R180, R186): reset meets them and every step
keeps them.
-/
namespace Sys2Proof.Machine

/-- Settles O27. -/
theorem resetMeetsTheInvariants : Obligations.ResetMeetsTheInvariants :=
  ⟨⟨Memory.nil_wf, by decide⟩, ⟨fun _ => rfl, fun halted => nomatch halted⟩⟩

/-! ### Memory in its canonical form, and I below 4096 -/

/-- What an instruction leaves in M: the bytes it found, or the digits, or the register block stored over them. -/
theorem exec_mem_cases {i : Instr} {s t : State} (h : exec i s = .next t) :
    t.mem = s.mem ∨ (∃ b, t.mem = s.storeBcd b) ∨ ∃ k, t.mem = s.storeBlock k := by
  cases i with
  | ldB x => cases h; exact .inr (.inl ⟨_, rfl⟩)
  | storeRegs x => cases h; exact .inr (.inr ⟨_, rfl⟩)
  | call nnn =>
    by_cases full : s.sp = 16
    · rw [exec_call_full nnn s (congrArg Fin.val full)] at h; cases h; exact .inl rfl
    · rw [exec_call_free nnn s (sp_lt_of_ne_full full)] at h; cases h; exact .inl rfl
  | ret =>
    by_cases empty : s.sp.val = 0
    · rw [exec_ret_empty s empty] at h; cases h; exact .inl rfl
    · obtain ⟨a, p, meaning, -, -⟩ := exec_ret_used s empty
      rw [meaning] at h; cases h; exact .inl rfl
  | ldVxK x =>
    cases search : s.lowestKey with
    | none => rw [exec_ldVxK_waits x (s.lowestKey_eq_none.mp search)] at h; cases h; exact .inl rfl
    | some k => rw [exec_ldVxK_pressed x search] at h; cases h; exact .inl rfl
  | seImm | sneImm | seReg | sneReg | skp | sknp => cases h; exact .inl (by rw [State.skipIf_eq]; rfl)
  | _ => cases h; exact .inl rfl

/-- The three instructions that write I write an address below 4096. -/
theorem exec_index_lt {i : Instr} {s t : State} (h : exec i s = .next t) (below : s.i.toNat < 4096) : t.i.toNat < 4096 := by
  have kept (unwritten : Part.index ∉ writtenParts i) : t.i.toNat < 4096 := by
    rcases exec_next_cases h with frame | ⟨-, -, -, rfl⟩ | ⟨-, -, rfl⟩
    · rw [frame.index unwritten]; exact below
    · exact below
    · exact below
  cases i with
  | ldI nnn => cases h; rw [State.setI_i, zextAddr_toNat]; exact nnn.isLt
  | addI x => cases h; rw [State.setI_i, addMod4096_toNat]; exact Nat.mod_lt _ (by decide)
  | ldF x => cases h; rw [State.setI_i, fontAddr_toNat]; omega
  | _ => exact kept (by simp [writtenParts])

theorem StorageForm.of_exec {i : Instr} {s t : State} (form : StorageForm s) (h : exec i s = .next t) : StorageForm t := by
  refine ⟨?_, exec_index_lt h form.index⟩
  rcases exec_mem_cases h with same | ⟨b, stored⟩ | ⟨k, stored⟩
  · rw [same]; exact form.memory
  · rw [stored]; exact State.storeBcd_wf form.memory b
  · rw [stored]; exact State.storeBlock_wf form.memory k

theorem StorageForm.of_cycle {r : Option Byte} {s t : State} (form : StorageForm s) (h : s.cycle r = .next t) :
    StorageForm t := by
  have begun : StorageForm (s.beginCycle r) := ⟨form.memory, form.index⟩
  obtain ⟨-, ⟨i, -, executed⟩ | ⟨e, -, rfl⟩⟩ := s.cycle_next h
  · exact begun.of_exec executed
  · exact ⟨form.memory, form.index⟩

theorem StorageForm.tick {s : State} (form : StorageForm s) : StorageForm s.tick := by
  cases halted : s.fsr.halted with
  | true => rw [s.tick_halted halted]; exact form
  | false => rw [s.tick_running halted]; exact ⟨form.memory, form.index⟩

theorem StorageForm.pressKeys {s : State} (form : StorageForm s) (k : Keypad) : StorageForm (s.pressKeys k) := by
  cases halted : s.fsr.halted with
  | true => rw [s.pressKeys_halted k halted]; exact form
  | false => rw [s.pressKeys_running k halted]; exact ⟨form.memory, form.index⟩

theorem StorageForm.loadImage {s : State} (form : StorageForm s) (image : List Byte) : StorageForm (s.loadImage image) := by
  rcases s.loadImage_cases image with ⟨-, same⟩ | ⟨-, -, raised⟩ | ⟨-, -, copied⟩
  · rw [same]; exact form
  · rw [raised]; exact ⟨form.memory, form.index⟩
  · rw [copied]; exact ⟨Memory.copyImage_wf form.memory _ image, form.index⟩

theorem StorageForm.withSchedule {s : State} (form : StorageForm s) (rest : List Event) : StorageForm (s.withSchedule rest) :=
  ⟨form.memory, form.index⟩

/-- Settles O25: by the event that is due. -/
theorem stepKeepsStorageForm : Obligations.StepKeepsStorageForm := by
  intro s t form h
  rcases step_next s h with ⟨-, cycle⟩ | ⟨b, rest, -, cycle⟩ | ⟨rest, -, rfl⟩ | ⟨k, rest, -, rfl⟩ | ⟨image, rest, -, load⟩
  · exact form.of_cycle cycle
  · exact (form.withSchedule rest).of_cycle cycle
  · exact (form.withSchedule rest).tick
  · exact (form.withSchedule rest).pressKeys k
  · obtain ⟨-, rfl⟩ := State.loadEvent_next _ load
    exact (form.withSchedule rest).loadImage image

/-! ### The fault record -/

theorem FaultRecord.of_clear {s : State} (clear : s.fsr = Fsr.clear) : FaultRecord s :=
  ⟨fun _ => clear, fun halted => absurd (clear ▸ halted) (by decide)⟩

theorem FaultRecord.of_holds {s : State} (halted : s.fsr.halted = true) (holds : FaultHolds s) : FaultRecord s :=
  ⟨fun running => absurd (halted.symm.trans running) (by decide), fun _ => holds⟩

/-- No condition speaks of the events that are due. -/
theorem FaultRecord.withSchedule {s : State} (record : FaultRecord s) (rest : List Event) :
    FaultRecord (s.withSchedule rest) := by
  refine ⟨record.running, fun halted => ?_⟩
  cases record.stopped halted with
  | unknownInstruction code word addr illegal => exact .unknownInstruction code word addr illegal
  | stackOverflow code word addr call full => exact .stackOverflow code word addr call full
  | stackUnderflow code word addr ret empty => exact .stackUnderflow code word addr ret empty
  | programTooLarge code word addr first => exact .programTooLarge code word addr first

/-- The instruction fetched keeps FSR clear, or is the CALL or RET whose word and condition FSR then records. -/
theorem FaultRecord.of_exec {i : Instr} {s t : State} (clear : s.fsr = Fsr.clear) (fetched : encodeWord i = s.fetchWord)
    (h : exec i s = .next t) : FaultRecord t := by
  rcases exec_next_cases h with frame | ⟨nnn, rfl, full, rfl⟩ | ⟨rfl, empty, rfl⟩
  · exact .of_clear (frame.fsr.trans clear)
  · exact .of_holds rfl (.stackOverflow rfl fetched rfl (opId_formatNNN 0x2 nnn) (congrArg Fin.val full))
  · exact .of_holds rfl (.stackUnderflow rfl fetched rfl rfl (congrArg Fin.val empty))

theorem FaultRecord.of_cycle {r : Option Byte} {s t : State} (record : FaultRecord s) (h : s.cycle r = .next t) :
    FaultRecord t := by
  obtain ⟨running, ⟨i, decoded, executed⟩ | ⟨e, refused, rfl⟩⟩ := s.cycle_next h
  · exact FaultRecord.of_exec (s := s.beginCycle r) (record.running running) (decodeWord_ok decoded).2 executed
  · exact .of_holds rfl (.unknownInstruction rfl rfl rfl ((decodeWord_eq_error _ e).mp refused).2)

/-- Settles O26: a halted machine keeps all but its schedule; a running one keeps FSR clear, or records the condition raised. -/
theorem stepKeepsTheFaultRecord : Obligations.StepKeepsTheFaultRecord := by
  intro s t record h
  cases halted : s.fsr.halted with
  | true =>
    obtain ⟨rest, rfl⟩ := step_halted halted h
    exact record.withSchedule rest
  | false =>
    have clear := record.running halted
    rcases step_next s h with
      ⟨-, cycle⟩ | ⟨b, rest, -, cycle⟩ | ⟨rest, -, rfl⟩ | ⟨k, rest, -, rfl⟩ | ⟨image, rest, -, load⟩
    · exact record.of_cycle cycle
    · exact (record.withSchedule rest).of_cycle cycle
    · rw [State.tick_running (s.withSchedule rest) halted]
      exact .of_clear clear
    · rw [State.pressKeys_running (s.withSchedule rest) k halted]
      exact .of_clear clear
    · obtain ⟨stopped | first, rfl⟩ := State.loadEvent_next _ load
      · cases halted.symm.trans stopped
      · rcases (s.withSchedule rest).loadImage_cases image with ⟨-, same⟩ | ⟨-, -, raised⟩ | ⟨-, -, copied⟩
        · rw [same]; exact .of_clear clear
        · rw [raised]; exact .of_holds rfl (.programTooLarge rfl rfl rfl first)
        · rw [copied]; exact .of_clear clear

end Sys2Proof.Machine
end
